-- ==== Sys2Proof/Word.lean ====
section
/-! DEFINITION. The word types of the machine. -/

namespace Sys2Proof

/-- A register, a memory cell, an operand byte or the stack pointer: `XLEN` = 8 bits, unsigned (R5, R8). -/
abbrev Byte := BitVec 8

/-- The program counter: `PCW` = 9 bits (R23). It holds 0 to 256 in every state a run reaches. -/
abbrev PcWord := BitVec 9

end Sys2Proof
end

