-- ==== Sys2Proof/Config.lean ====
section
/-! DEFINITION. The implementation parameters of 00_scope.md R5, each stated once. The opcode bytes stand with the decoder
(Decode.lean); `STACK_LIMIT`, the one OPEN parameter, is a field of State (log 2) and only its default stands here. -/

namespace Sys2Proof.Config

/-- `MEM_SIZE`: the number of byte cells, addresses 0 to 255 (R5, R28). -/
abbrev memSize : Nat := 256

/-- `NREG`: the number of general registers, indices 0 to 7 (R5, R20). -/
abbrev nreg : Nat := 8

/-- `SP_INIT`: the stack pointer at reset, which is also its value when the stack is empty (R5, R25). -/
def spInit : Byte := 0xF4

/-- `PC_RESET`: the program counter at reset (R5, R23, R182). -/
def pcReset : PcWord := 0

/-- `R7_RESET`: the reset value of register 7, the spec's own decision D13 (R5, R22). UNVERIFIED, log 3. -/
def r7Reset : Byte := 0x00

/-- The default of the OPEN parameter `STACK_LIMIT` (R5, R133). -/
def stackLimitDefault : Byte := 0

end Sys2Proof.Config
end

