-- ==== Sys2Proof/Syntax.lean ====
section
/-! DEFINITION. The instruction set: one constructor per row of spec/opcode_table.json, in the table's order. -/

namespace Sys2Proof

/-- An instruction with its operand bytes as they were fetched. A register operand is a whole byte (R64): an index above 7
is an instruction all the same, and faults when it is executed (R71, R10). -/
inductive Instr where
  /-- LDI a, b: load-immediate (R120). -/
  | ldi (a b : Byte)
  /-- PRN a: print-register (R121). -/
  | prn (a : Byte)
  /-- HLT: halt (R122). -/
  | hlt
  /-- PUSH a: push (R131). -/
  | push (a : Byte)
  /-- POP a: pop (R132). -/
  | pop (a : Byte)
  /-- CALL a: call subroutine (R141). -/
  | call (a : Byte)
  /-- RET: return from subroutine (R142). -/
  | ret
  /-- ADD a, b: add (R103). -/
  | add (a b : Byte)
  /-- SUB a, b: subtract (R104). -/
  | sub (a b : Byte)
  /-- MUL a, b: multiply (R105). -/
  | mul (a b : Byte)
  /-- DIV a, b: divide (R106). -/
  | div (a b : Byte)
  /-- XOR a, b: exclusive-or (R109). -/
  | xor (a b : Byte)
  /-- SHL a, b: shift-left (R107). -/
  | shl (a b : Byte)
  /-- SHR a, b: shift-right (R108). -/
  | shr (a b : Byte)
  deriving DecidableEq, Repr

end Sys2Proof
end

