-- ==== Sys2Proof/WellFormed.lean ====
section
/-! DEFINITION. Which instructions the assembly notation can write: `Ra` is `R0` to `R7` (R72). Decoding and execution do
not ask for it: a byte string outside it decodes, and its execution faults (R64, R71). -/

namespace Sys2Proof

/-- A byte that names a general register (R20, R64). -/
def namesRegister (a : Byte) : Bool := decide (a.toNat < Config.nreg)

/-- Every register operand names a register. LDI's second operand is an immediate and HLT and RET have no operand (R72, R123). -/
def Instr.wellFormed : Instr → Bool
  | .ldi a _ => namesRegister a
  | .prn a => namesRegister a
  | .hlt => true
  | .push a => namesRegister a
  | .pop a => namesRegister a
  | .call a => namesRegister a
  | .ret => true
  | .add a b => namesRegister a && namesRegister b
  | .sub a b => namesRegister a && namesRegister b
  | .mul a b => namesRegister a && namesRegister b
  | .div a b => namesRegister a && namesRegister b
  | .xor a b => namesRegister a && namesRegister b
  | .shl a b => namesRegister a && namesRegister b
  | .shr a b => namesRegister a && namesRegister b

end Sys2Proof
end

