-- ==== Sys2Proof/Decode.lean ====
section
/-! DEFINITION. The opcode bytes, the fields of the opcode byte, the decoder (total on any three fetched bytes) and the
encoder. Decoding follows the order of the execution loop (R81, R83 to R87); encoding follows the formats of R63. -/

namespace Sys2Proof

/-! ## Opcode bytes (R66, R67) -/

/-- `OPC_LDI` (R66). -/
def opcLdi : Byte := 0b10000010
/-- `OPC_PRN` (R66). -/
def opcPrn : Byte := 0b01000111
/-- `OPC_HLT` (R66). -/
def opcHlt : Byte := 0b00000001
/-- `OPC_PUSH` (R67, the spec's general knowledge, D1). PRESUMED, log 1. -/
def opcPush : Byte := 0b01000101
/-- `OPC_POP` (R67, D1). PRESUMED, log 1. -/
def opcPop : Byte := 0b01000110
/-- `OPC_CALL` (R67, D1). PRESUMED, log 1. -/
def opcCall : Byte := 0b01010000
/-- `OPC_RET` (R67, D1). PRESUMED, log 1. -/
def opcRet : Byte := 0b00010001
/-- `OPC_ADD` (R67, D1). PRESUMED, log 1. -/
def opcAdd : Byte := 0b10100000
/-- `OPC_SUB` (R67, D1). PRESUMED, log 1. -/
def opcSub : Byte := 0b10100001
/-- `OPC_MUL` (R67, D1). PRESUMED, log 1. -/
def opcMul : Byte := 0b10100010
/-- `OPC_DIV` (R67, D1). PRESUMED, log 1. -/
def opcDiv : Byte := 0b10100011
/-- `OPC_XOR` (R67, D1). PRESUMED, log 1. -/
def opcXor : Byte := 0b10101011
/-- `OPC_SHL` (R67, D1). PRESUMED, log 1. -/
def opcShl : Byte := 0b10101100
/-- `OPC_SHR` (R67, D1). PRESUMED, log 1. -/
def opcShr : Byte := 0b10101101

/-! ## Fields of the opcode byte (R61) -/

/-- `n := ir[7:6]` = `(ir AND 0xC0) >> 6`: the operand count (R61, R83). -/
def operandCount (ir : Byte) : Nat := ((ir &&& 0xC0) >>> 6).toNat

/-- `alu := ir[5]` = `(ir AND 0x20) >> 5`: the ALU flag (R61, R83). -/
def aluFlag (ir : Byte) : Bool := (ir &&& 0x20) >>> 5 == 1

/-! ## Decoding -/

/-- Why a byte is no instruction. -/
inductive Reject where
  /-- Bit 5 is clear and the byte is no dispatch-table entry (R69, R87). -/
  | unknownOpcode (ir : Byte)
  /-- Bit 5 is set and the byte is none of the seven ALU opcodes (R70, R110). -/
  | unsupportedOperation (ir : Byte)
  deriving DecidableEq, Repr

/-- The ALU's selection by exact match, both operands being register indices (R85, R100, R110). -/
def decodeAlu (ir a b : Byte) : Except Reject Instr :=
  if ir = opcAdd then .ok (.add a b)
  else if ir = opcSub then .ok (.sub a b)
  else if ir = opcMul then .ok (.mul a b)
  else if ir = opcDiv then .ok (.div a b)
  else if ir = opcXor then .ok (.xor a b)
  else if ir = opcShl then .ok (.shl a b)
  else if ir = opcShr then .ok (.shr a b)
  else .error (.unsupportedOperation ir)

/-- The dispatch table's lookup by exact match, each handler given its own number of operand bytes (R86, R87, R123). -/
def decodeTable (ir a b : Byte) : Except Reject Instr :=
  if ir = opcLdi then .ok (.ldi a b)
  else if ir = opcPrn then .ok (.prn a)
  else if ir = opcPush then .ok (.push a)
  else if ir = opcPop then .ok (.pop a)
  else if ir = opcHlt then .ok .hlt
  else .error (.unknownOpcode ir)

/-- The instruction in three fetched bytes: call and return first, then the ALU flag, then the table (R81, R84 to R87).
Operand bytes never take part in the recognition (R71). -/
def decode (ir a b : Byte) : Except Reject Instr :=
  if ir = opcCall then .ok (.call a)
  else if ir = opcRet then .ok .ret
  else if aluFlag ir then decodeAlu ir a b
  else decodeTable ir a b

/-! ## Encoding -/

/-- The opcode byte of an instruction (R66, R67, R72). -/
def Instr.opcode : Instr → Byte
  | .ldi _ _ => opcLdi
  | .prn _ => opcPrn
  | .hlt => opcHlt
  | .push _ => opcPush
  | .pop _ => opcPop
  | .call _ => opcCall
  | .ret => opcRet
  | .add _ _ => opcAdd
  | .sub _ _ => opcSub
  | .mul _ _ => opcMul
  | .div _ _ => opcDiv
  | .xor _ _ => opcXor
  | .shl _ _ => opcShl
  | .shr _ _ => opcShr

/-- The operand bytes of an instruction, in ascending address order (R41, R63). -/
def Instr.operands : Instr → List Byte
  | .ldi a b => [a, b]
  | .prn a => [a]
  | .hlt => []
  | .push a => [a]
  | .pop a => [a]
  | .call a => [a]
  | .ret => []
  | .add a b => [a, b]
  | .sub a b => [a, b]
  | .mul a b => [a, b]
  | .div a b => [a, b]
  | .xor a b => [a, b]
  | .shl a b => [a, b]
  | .shr a b => [a, b]

/-- The bytes of an instruction, the opcode byte at the lowest address (R41, R63, R72). -/
def encode (i : Instr) : List Byte := i.opcode :: i.operands

/-! ## The opcode table's numbering of bits -/

/-- The three bytes at the fetch address that a table word stands for: byte `k` is bits `8k + 7` to `8k`, and every bit from
`nbits` on is 0. -/
def tableBytes (nbits w : Nat) : Byte × Byte × Byte :=
  (BitVec.ofNat 8 (w % 2 ^ nbits), BitVec.ofNat 8 (w % 2 ^ nbits / 256), BitVec.ofNat 8 (w % 2 ^ nbits / 65536))

/-- The instruction the decoder reads from a word whose bits are numbered as spec/opcode_table.json numbers them. -/
def decodeTableWord (nbits w : Nat) : Option Instr :=
  match tableBytes nbits w with
  | (ir, a, b) => (decode ir a b).toOption

end Sys2Proof
end

