-- ==== Sys2Proof/Machine/State.lean ====
section
/-! DEFINITION. The state of the machine (10_state.md R20 to R34), the reasons a run ends in `Faulted` (60_exceptions.md
R150), the outcomes a step can stop with, and the state after reset (R33, R180). -/

namespace Sys2Proof.Machine

/-- The index space an out-of-range access belongs to (R150, the tag is the spec's D18). -/
inductive Space where
  /-- The memory, addresses 0 to 255. -/
  | mem
  /-- The register file, indices 0 to 7. -/
  | reg
  deriving DecidableEq, Repr

/-- The reason a `Faulted` status carries (R150). A `pc` payload is the address of the faulting instruction's opcode byte. -/
inductive FaultReason where
  /-- An address outside 0 to 255 or a register index outside 0 to 7, with that address or index (R151, R152). -/
  | outOfBounds (space : Space) (index : Nat)
  /-- A byte with bit 5 clear that is no dispatch-table entry (R153). -/
  | unknownOpcode (ir : Byte) (pc : PcWord)
  /-- A byte with bit 5 set that is none of the seven ALU opcodes (R154). -/
  | unsupportedOperation (ir : Byte) (pc : PcWord)
  /-- DIV with a zero divisor register (R155). -/
  | divisionByZero (pc : PcWord)
  /-- A push that would write below `STACK_LIMIT` (R156). -/
  | stackOverflow (pc : PcWord)
  /-- A pop from the empty stack (R157). -/
  | stackUnderflow (pc : PcWord)
  deriving DecidableEq, Repr

/-- The run status (R27). -/
inductive Status where
  /-- The machine executes steps. -/
  | running
  /-- Entered only by HLT: the only normal end. -/
  | halted
  /-- Entered only by `raise`, with the reason. -/
  | faulted (reason : FaultReason)
  deriving DecidableEq, Repr

/-- Memory as the cells that differ from the reset content, in the canonical form `Memory.wf` (R28; log 10). -/
abbrev Memory := List Host.Cell

/-- The whole state (R31: "Nothing else persists from one instruction to the next"), with the launch parameter
`STACK_LIMIT` beside it. -/
structure State where
  /-- The general registers `x[0]` to `x[7]` (R20). -/
  x : Vector Byte Config.nreg
  /-- The program counter (R23). -/
  pc : PcWord
  /-- The stack pointer, a register of its own (R25, R26). -/
  sp : Byte
  /-- The run status (R27). -/
  status : Status
  /-- The memory `M[0]` to `M[255]` (R28). -/
  mem : Memory
  /-- The output stream (R30), oldest byte first. -/
  out : List Byte
  /-- `STACK_LIMIT`, fixed by the host for the whole run (R5, R133, R183). Configuration that no step changes.
  DESIGN CHOICE to hold it here, log 2. -/
  stackLimit : Byte
  deriving DecidableEq, Repr

/-- Why `step` answers no state. Neither is a fault of the core, which is a `Status`: both say that the spec gives the
state no step (R80, R162, R192). -/
inductive Fault where
  /-- Raised by `step` when the status is `halted`. Safe: the hardware's state never changes again until reset (R80). -/
  | noStepInHalted
  /-- Raised by `step` when the status is `faulted`, with that reason. Safe: the status is terminal (R80, R162). -/
  | noStepInFaulted (reason : FaultReason)
  deriving DecidableEq, Repr

/-- Why an instruction has no meaning. No instruction of this model is refused. -/
inductive Refusal where
  /-- Raised by the dispatcher for an instruction whose meaning is not written yet. Safe: nothing is claimed of it. -/
  | notModelled (mnemonic : String)
  deriving DecidableEq, Repr

/-- The state after reset (R33, R180) for a value of `R7_RESET` and of `STACK_LIMIT`. -/
def State.resetWith (r7 stackLimit : Byte) : State where
  x := #v[0, 0, 0, 0, 0, 0, 0, r7]
  pc := Config.pcReset
  sp := Config.spInit
  status := .running
  mem := []
  out := []
  stackLimit := stackLimit

/-- The machine right after reset (R33, R180): the parameters at the values of R5. -/
def State.reset : State := State.resetWith Config.r7Reset Config.stackLimitDefault

end Sys2Proof.Machine
end

