-- ==== Sys2Proof/Machine/Ops.lean ====
section
/-! DEFINITION. The named operations over memory, registers, stack pointer, program counter, output and status that the
meanings share, with taking a fault among them (R12, R160) and the launch state (R183). There is no return from a fault
(R162), so none stands beside it. -/

namespace Sys2Proof.Machine

/-! ## Memory -/

/-- What a cell that is not listed reads as: the reset content of every cell (R28, R33). -/
def Memory.unlisted : Byte := 0

/-- The canonical form: addresses strictly rising, all inside memory, and no listed byte equal to the unlisted one. -/
abbrev Memory.wf (m : Memory) : Prop :=
  m.Pairwise (fun c d => c.1 < d.1) ∧ ∀ c ∈ m, c.1 < Config.memSize ∧ c.2 ≠ Memory.unlisted

/-- The byte `M[a]` (R9). -/
def Memory.read (m : Memory) (a : Nat) : Byte :=
  match m with
  | [] => Memory.unlisted
  | c :: rest => if c.1 = a then c.2 else Memory.read rest a

/-- The cell `a` holding `v` in front of the rest, or the rest alone where `v` is what an unlisted cell reads as. -/
def Memory.cons (a : Nat) (v : Byte) (rest : Memory) : Memory :=
  if v = Memory.unlisted then rest else (a, v) :: rest

/-- `M[a] <- v`, only the addressed cell changing (R44), in the canonical form. -/
def Memory.write (m : Memory) (a : Nat) (v : Byte) : Memory :=
  match m with
  | [] => Memory.cons a v []
  | c :: rest =>
    if a < c.1 then Memory.cons a v (c :: rest)
    else if c.1 = a then Memory.cons a v rest
    else c :: Memory.write rest a v

/-- The bytes placed sequentially from address `a` upward (R41, R183). -/
def Memory.load (m : Memory) (a : Nat) (image : List Byte) : Memory :=
  match image with
  | [] => m
  | v :: rest => Memory.load (m.write a v) (a + 1) rest

/-! ## Registers -/

/-- `x[i]` as a value (R10). -/
def State.reg (s : State) (i : Fin Config.nreg) : Byte := s.x[i]

/-- `x[i] <- v` (R10). -/
def State.setReg (s : State) (i : Fin Config.nreg) (v : Byte) : State := { s with x := s.x.set i v }

/-! ## Memory of a state -/

/-- `M[addr] <- v` with no bounds check of its own (R9, R44). -/
def State.setByte (s : State) (addr : Nat) (v : Byte) : State := { s with mem := s.mem.write addr v }

/-! ## Program counter, stack pointer, output, status -/

/-- `zext_9(t)` (R7). -/
def zext9 (t : Byte) : PcWord := t.setWidth 9

/-- The generic advance `pc <- pc + n + 1`, `n` the operand count of the opcode byte `ir` (R88). -/
def State.advance (s : State) (ir : Byte) : State := { s with pc := s.pc + BitVec.ofNat 9 (operandCount ir + 1) }

/-- `pc <- zext_9(t)` (R141, R142). -/
def State.jump (s : State) (t : Byte) : State := { s with pc := zext9 t }

/-- `sp <- v` (R13). -/
def State.setSp (s : State) (v : Byte) : State := { s with sp := v }

/-- `out <- out ++ [v]` (R13, R121). -/
def State.emit (s : State) (v : Byte) : State := { s with out := s.out ++ [v] }

/-- `status <- Halted` (R13, R122). -/
def State.halt (s : State) : State := { s with status := .halted }

/-! ## Faults -/

/-- What a fault does: the status takes the reason, and nothing else changes (R12, R160). -/
def State.raise (s : State) (f : FaultReason) : State := { s with status := .faulted f }

/-- The end of an instruction that started in `s`: its writes all happen, or it is abandoned with none of them and the
fault is taken (R12, R81, R161). -/
def commit (s : State) (r : Except FaultReason State) : Host.Outcome State Fault Refusal :=
  match r with
  | .ok t => .next t
  | .error f => .next (s.raise f)

/-- The spec's numbering of the fault kinds (R150, D18). -/
def FaultReason.code : FaultReason → Nat
  | .outOfBounds .mem _ => 1
  | .outOfBounds .reg _ => 2
  | .unknownOpcode _ _ => 3
  | .unsupportedOperation _ _ => 4
  | .divisionByZero _ => 5
  | .stackOverflow _ => 6
  | .stackUnderflow _ => 7

/-! ## Bounds-checked memory access (R11) -/

/-- `MemRead(addr, 1)`. -/
def State.memRead (s : State) (addr : Nat) : Except FaultReason Byte :=
  if addr < Config.memSize then .ok (s.mem.read addr) else .error (.outOfBounds .mem addr)

/-- `MemWrite(addr, 1, v)`. -/
def State.memWrite (s : State) (addr : Nat) (v : Byte) : Except FaultReason State :=
  if addr < Config.memSize then .ok (s.setByte addr v) else .error (.outOfBounds .mem addr)

/-! ## The stack (R130, R133, R134) -/

/-- The address a push writes: the decremented stack pointer (R130, R131). -/
def State.pushAddr (s : State) : Byte := s.sp - 1

/-- A push of `v` by the instruction at `pc`: `sp` is decremented first and `v` stored at the new `sp`, unless that address
is below `STACK_LIMIT` (R131, R133). The guard is on mathematical integers (R8), so `sp` = 0 never passes it. -/
def State.pushByte (s : State) (v : Byte) : Except FaultReason State :=
  if (s.sp.toNat : Int) - 1 < s.stackLimit.toNat then .error (.stackOverflow s.pc)
  else (s.setSp s.pushAddr).memWrite s.pushAddr.toNat v

/-- A pop by the instruction at `pc`: the byte at `sp` and the state with `sp` incremented, unless the stack is empty
(R132, R134). -/
def State.popByte (s : State) : Except FaultReason (Byte × State) :=
  if s.sp ≥ Config.spInit then .error (.stackUnderflow s.pc)
  else do
    let v ← s.memRead s.sp.toNat
    return (v, s.setSp (s.sp + 1))

/-! ## Launch (R183) -/

/-- The launch state for an image and a `STACK_LIMIT`: reset, then the image placed from address 0. An image longer than
memory (D21) and a `STACK_LIMIT` above `SP_INIT` (R5) have no launch state. -/
def State.launch (image : List Byte) (stackLimit : Byte) : Option State :=
  if image.length ≤ Config.memSize ∧ stackLimit ≤ Config.spInit then
    some { State.resetWith Config.r7Reset stackLimit with mem := Memory.load [] 0 image }
  else none

end Sys2Proof.Machine
end

