-- ==== Sys2Proof/Machine/Operands.lean ====
section
/-! DEFINITION. Every operand form of the instruction set: the register index (R64), the immediate (R65) and the ALU's pair
of register operands (R100). -/

namespace Sys2Proof.Machine

/-- A register-index operand: the whole byte, unmasked, selecting `x[0]` to `x[7]` or faulting (R10, R64). -/
def regIndex (a : Byte) : Except FaultReason (Fin Config.nreg) :=
  if h : a.toNat < Config.nreg then .ok ⟨a.toNat, h⟩ else .error (.outOfBounds .reg a.toNat)

/-- The immediate operand of LDI: the byte itself (R65). -/
def immediate (b : Byte) : Byte := b

/-- The ALU's operands: the destination index, and the old values of the destination and the source, both indices checked
first, `a` before `b` (R100, R91). -/
def aluOperands (a b : Byte) (s : State) : Except FaultReason (Fin Config.nreg × Byte × Byte) := do
  let ra ← regIndex a
  let rb ← regIndex b
  return (ra, s.reg ra, s.reg rb)

end Sys2Proof.Machine
end

