-- ==== Sys2Proof/Machine/Flags.lean ====
section
/-! DEFINITION. The machine has no status flags (R32): nothing records carry, borrow, overflow, zero or sign. What stands here
in place of flag computations is what becomes of a result that does not fit, and the result functions of the seven ALU
operations (R101 to R109), each on the exact integers and narrowed once. -/

namespace Sys2Proof.Machine

/-- `trunc8(v)` = `v mod 256`, the mathematical modulus (R7). -/
def trunc8 (v : Int) : Byte := BitVec.ofNat 8 (v % 256).toNat

/-- ADD: `trunc8(va + vb)` (R103). -/
def aluAdd (va vb : Byte) : Byte := trunc8 ((va.toNat : Int) + vb.toNat)

/-- SUB: `trunc8(va - vb)` (R104). -/
def aluSub (va vb : Byte) : Byte := trunc8 ((va.toNat : Int) - vb.toNat)

/-- MUL: `trunc8(va * vb)` (R105). -/
def aluMul (va vb : Byte) : Byte := trunc8 ((va.toNat : Int) * vb.toNat)

/-- DIV for a non-zero divisor: `floor(va / vb)` (R102, R106). -/
def aluDiv (va vb : Byte) : Byte := BitVec.ofNat 8 (va.toNat / vb.toNat)

/-- SHL: `trunc8(va * 2^vb)`, the amount unreduced (R107). -/
def aluShl (va vb : Byte) : Byte := trunc8 ((va.toNat : Int) * 2 ^ vb.toNat)

/-- SHR: `floor(va / 2^vb)`, the amount unreduced (R108). -/
def aluShr (va vb : Byte) : Byte := BitVec.ofNat 8 (va.toNat / 2 ^ vb.toNat)

/-- XOR: `va XOR vb`, bit by bit (R109). -/
def aluXor (va vb : Byte) : Byte := va ^^^ vb

end Sys2Proof.Machine
end

