-- ==== Sys2Proof/Machine/Alu.lean ====
section
/-! DEFINITION. The ALU instructions ADD, SUB, MUL, DIV, XOR, SHL and SHR (41_alu.md). -/

namespace Sys2Proof.Machine

/-- ADD a, b (R103). -/
def execAdd (a b : Byte) (s : State) : Host.Outcome State Fault Refusal :=
  commit s do
    let (ra, va, vb) ← aluOperands a b s
    return (s.setReg ra (aluAdd va vb)).advance opcAdd

/-- SUB a, b (R104). -/
def execSub (a b : Byte) (s : State) : Host.Outcome State Fault Refusal :=
  commit s do
    let (ra, va, vb) ← aluOperands a b s
    return (s.setReg ra (aluSub va vb)).advance opcSub

/-- MUL a, b (R105). -/
def execMul (a b : Byte) (s : State) : Host.Outcome State Fault Refusal :=
  commit s do
    let (ra, va, vb) ← aluOperands a b s
    return (s.setReg ra (aluMul va vb)).advance opcMul

/-- DIV a, b: a zero divisor faults after both index checks (R106, R155). -/
def execDiv (a b : Byte) (s : State) : Host.Outcome State Fault Refusal :=
  commit s do
    let (ra, va, vb) ← aluOperands a b s
    if vb = 0 then .error (.divisionByZero s.pc)
    else return (s.setReg ra (aluDiv va vb)).advance opcDiv

/-- XOR a, b (R109). -/
def execXor (a b : Byte) (s : State) : Host.Outcome State Fault Refusal :=
  commit s do
    let (ra, va, vb) ← aluOperands a b s
    return (s.setReg ra (aluXor va vb)).advance opcXor

/-- SHL a, b (R107). -/
def execShl (a b : Byte) (s : State) : Host.Outcome State Fault Refusal :=
  commit s do
    let (ra, va, vb) ← aluOperands a b s
    return (s.setReg ra (aluShl va vb)).advance opcShl

/-- SHR a, b (R108). -/
def execShr (a b : Byte) (s : State) : Host.Outcome State Fault Refusal :=
  commit s do
    let (ra, va, vb) ← aluOperands a b s
    return (s.setReg ra (aluShr va vb)).advance opcShr

end Sys2Proof.Machine
end

