-- ==== Sys2Proof/Machine/CallReturn.lean ====
section
/-! DEFINITION. CALL and RET (44_call_return.md). Both set the program counter themselves (R89). -/

namespace Sys2Proof.Machine

/-- The return address of the CALL at `pc`: `pc + 2` as the byte that is pushed. It fits a byte for every `pc` up to 253, which
is every `pc` an instruction is fetched at (R141, R82); what a larger `pc` would give is a DESIGN CHOICE, log 8. -/
def returnAddr (pc : PcWord) : Byte := (pc + 2).setWidth 8

/-- CALL a: the register is read before the push (R141, R133). -/
def execCall (a : Byte) (s : State) : Host.Outcome State Fault Refusal :=
  commit s do
    let ra ← regIndex a
    let t ← s.pushByte (returnAddr s.pc)
    return t.jump (s.reg ra)

/-- RET (R142, R134). -/
def execRet (s : State) : Host.Outcome State Fault Refusal :=
  commit s do
    let (v, t) ← s.popByte
    return t.jump v

end Sys2Proof.Machine
end

