-- ==== Sys2Proof/Machine/LoadPrintHalt.lean ====
section
/-! DEFINITION. LDI, PRN and HLT (42_load_print_halt.md). -/

namespace Sys2Proof.Machine

/-- LDI a, b (R120). -/
def execLdi (a b : Byte) (s : State) : Host.Outcome State Fault Refusal :=
  commit s do
    let ra ← regIndex a
    return (s.setReg ra (immediate b)).advance opcLdi

/-- PRN a (R121). -/
def execPrn (a : Byte) (s : State) : Host.Outcome State Fault Refusal :=
  commit s do
    let ra ← regIndex a
    return (s.emit (s.reg ra)).advance opcPrn

/-- HLT: the program counter keeps the address of the HLT (R122, R89). -/
def execHlt (s : State) : Host.Outcome State Fault Refusal :=
  commit s (.ok s.halt)

end Sys2Proof.Machine
end

