-- ==== Sys2Proof/Machine/Stack.lean ====
section
/-! DEFINITION. PUSH and POP (43_stack.md). -/

namespace Sys2Proof.Machine

/-- PUSH a: the index check, then the overflow guard (R131, R133). -/
def execPush (a : Byte) (s : State) : Host.Outcome State Fault Refusal :=
  commit s do
    let ra ← regIndex a
    let t ← s.pushByte (s.reg ra)
    return t.advance opcPush

/-- POP a: the index check, then the underflow guard (R132, R134). -/
def execPop (a : Byte) (s : State) : Host.Outcome State Fault Refusal :=
  commit s do
    let ra ← regIndex a
    let (v, t) ← s.popByte
    return (t.setReg ra v).advance opcPop

end Sys2Proof.Machine
end

