-- ==== Sys2Proof/Machine/Fetch.lean ====
section
/-! DEFINITION. The fetch with its unconditional lookahead, and the recognition of the fetched instruction (R81 to R87). -/

namespace Sys2Proof.Machine

/-- The three bytes at `pc`, fetched whatever the instruction's length. Where one of the addresses exceeds 255 the first
out-of-range address is reported, always 256 (R82, R151). -/
def fetchBytes (s : State) : Except FaultReason (Byte × Byte × Byte) :=
  if s.pc.toNat + 2 > 255 then .error (.outOfBounds .mem 256)
  else do
    let ir ← s.memRead s.pc.toNat
    let a ← s.memRead (s.pc.toNat + 1)
    let b ← s.memRead (s.pc.toNat + 2)
    return (ir, a, b)

/-- The fault an unrecognised byte at `pc` raises (R87, R110). -/
def rejectReason (pc : PcWord) : Reject → FaultReason
  | .unknownOpcode ir => .unknownOpcode ir pc
  | .unsupportedOperation ir => .unsupportedOperation ir pc

/-- The instruction at `pc`, or the fault of a fetch or of a recognition that fails, in that order (R91). -/
def fetchInstr (s : State) : Except FaultReason Instr := do
  let (ir, a, b) ← fetchBytes s
  match decode ir a b with
  | .ok i => return i
  | .error e => .error (rejectReason s.pc e)

/-- The state in which the table word is the next instruction to run: its three bytes stored where the next step fetches.
That step needs a `Running` status and a program counter whose lookahead fits, so a state without them is given them (log 9). -/
def State.withWordAtFetch (s : State) (nbits w : Nat) : State :=
  let pc := if s.pc.toNat + 2 > 255 then Config.pcReset else s.pc
  match tableBytes nbits w with
  | (ir, a, b) => { s with pc := pc, status := .running, mem := s.mem.load pc.toNat [ir, a, b] }

end Sys2Proof.Machine
end

