-- ==== Sys2Proof/Machine/Step.lean ====
section
/-! DEFINITION. One step of the execution loop (R80, R81). -/

namespace Sys2Proof.Machine

/-- One step: only a `Running` machine has one (R80). It fetches and decodes, and runs the instruction or takes the fault. -/
def step (s : State) : Host.Outcome State Fault Refusal :=
  match s.status with
  | .running =>
    match fetchInstr s with
    | .ok i => exec i s
    | .error f => .next (s.raise f)
  | .halted => .fault .noStepInHalted
  | .faulted reason => .fault (.noStepInFaulted reason)

/-- `s` with the table word stored where `step` fetches its next instruction. -/
def State.withFetchWord (s : State) (nbits w : Nat) : State := s.withWordAtFetch nbits w

end Sys2Proof.Machine
end

