-- ==== Sys2Proof/Safety.lean ====
section
/-! DEFINITION. The terms claims use: the invariant of a run, what the next step fetches, and the fault a step is due to take
(a step with none due is a safe one). -/

namespace Sys2Proof.Machine

/-- The invariant of a run: memory keeps its canonical form inside 0 to 255 (R28), `STACK_LIMIT <= sp <= SP_INIT` (R25), and
the program counter holds 0 to 256 (R23). -/
abbrev State.Inv (s : State) : Prop :=
  s.mem.wf ∧ s.stackLimit.toNat ≤ s.sp.toNat ∧ s.sp.toNat ≤ 244 ∧ s.pc.toNat ≤ 256

/-- The machine's next step can fetch an instruction: it is running and its three fetch addresses lie in memory (R80, R82). -/
abbrev State.CanFetch (s : State) : Prop := s.status = .running ∧ s.pc.toNat ≤ 253

/-- The byte the next step fetches as its opcode byte, `M[pc]` (R82). -/
def State.irByte (s : State) : Byte := s.mem.read s.pc.toNat

/-- The byte the next step fetches as operand `a`, `M[pc + 1]` (R82). -/
def State.aByte (s : State) : Byte := s.mem.read (s.pc.toNat + 1)

/-- The byte the next step fetches as operand `b`, `M[pc + 2]` (R82). -/
def State.bByte (s : State) : Byte := s.mem.read (s.pc.toNat + 2)

/-- The register operand bytes of an instruction, in the order their indices are checked (R91 (3) and (4), R152). -/
def regOperands : Instr → List Byte
  | .ldi a _ => [a]
  | .prn a => [a]
  | .hlt => []
  | .push a => [a]
  | .pop a => [a]
  | .call a => [a]
  | .ret => []
  | .add a b => [a, b]
  | .sub a b => [a, b]
  | .mul a b => [a, b]
  | .div a b => [a, b]
  | .xor a b => [a, b]
  | .shl a b => [a, b]
  | .shr a b => [a, b]

/-- The instruction's own fault condition, checked last (R91 (5)): a zero divisor (R155), a push with no room above
`STACK_LIMIT` (R156), a pop of the empty stack (R157). -/
def State.ownFault (s : State) : Instr → Option FaultReason
  | .ldi _ _ => none
  | .prn _ => none
  | .hlt => none
  | .push _ => if s.sp.toNat ≤ s.stackLimit.toNat then some (.stackOverflow s.pc) else none
  | .pop _ => if 244 ≤ s.sp.toNat then some (.stackUnderflow s.pc) else none
  | .call _ => if s.sp.toNat ≤ s.stackLimit.toNat then some (.stackOverflow s.pc) else none
  | .ret => if 244 ≤ s.sp.toNat then some (.stackUnderflow s.pc) else none
  | .add _ _ => none
  | .sub _ _ => none
  | .mul _ _ => none
  | .div _ b => if s.x[b.toNat]? = some 0 then some (.divisionByZero s.pc) else none
  | .xor _ _ => none
  | .shl _ _ => none
  | .shr _ _ => none

/-- The fault a recognised instruction is due to take, if any: the first register operand above 7, else its own condition
(R91 (3) to (5)). -/
def State.instrFault (s : State) (i : Instr) : Option FaultReason :=
  match (regOperands i).find? (fun a => decide (8 ≤ a.toNat)) with
  | some a => some (.outOfBounds .reg a.toNat)
  | none => s.ownFault i

/-- The fault a step of a running machine is due to take, if any, read off the list of R91 with no instruction executed:
fetch bounds, recognition of the byte, then the instruction's faults. -/
def State.dueFault (s : State) : Option FaultReason :=
  if 254 ≤ s.pc.toNat then some (.outOfBounds .mem 256)
  else match decode s.irByte s.aByte s.bByte with
    | .error (.unknownOpcode ir) => some (.unknownOpcode ir s.pc)
    | .error (.unsupportedOperation ir) => some (.unsupportedOperation ir s.pc)
    | .ok i => s.instrFault i

/-- The address lies in the region pushes write and pops read: `STACK_LIMIT` to `SP_INIT - 1` (R45, R46). -/
abbrev State.InStackRegion (s : State) (a : Nat) : Prop := s.stackLimit.toNat ≤ a ∧ a < 244

end Sys2Proof.Machine
end

