-- ==== Sys2Proof/Certificates/Slice0/Obligations.lean ====
section
/-! DEFINITION. The statements for the provers. A clause marked "D<n>" rests on a decision the spec took where its source is
silent (92_eei_decisions.md), which is a rule of the spec all the same; a clause marked "log <n>" rests on this model's own
choice. Opcode bytes are written by name (`opcAdd`), as the spec's rules write them, where the number does not matter. Where a statement gives the byte of an instruction's encoding as a number, it is the number the
instruction's rule and spec/opcode_table.json print; eleven of the fourteen are the spec's general knowledge (R67, D1; log 1). -/

open Sys2Proof Sys2Proof.Machine

/-! ## Encoding -/

/-- The fourteen opcode bytes, written out bit by bit from the tables of R66 and R67, decode to their instructions whatever
operand and lookahead bytes follow. Eleven of the bytes are the spec's general knowledge (R67, D1; log 1). -/
def Obligations.OpcodeBytesDecode : Prop :=
  ∀ a b : Byte,
    decode 0b10000010 a b = .ok (.ldi a b) ∧ decode 0b01000111 a b = .ok (.prn a) ∧
    decode 0b00000001 a b = .ok .hlt ∧ decode 0b01000101 a b = .ok (.push a) ∧
    decode 0b01000110 a b = .ok (.pop a) ∧ decode 0b01010000 a b = .ok (.call a) ∧
    decode 0b00010001 a b = .ok .ret ∧ decode 0b10100000 a b = .ok (.add a b) ∧
    decode 0b10100001 a b = .ok (.sub a b) ∧ decode 0b10100010 a b = .ok (.mul a b) ∧
    decode 0b10100011 a b = .ok (.div a b) ∧ decode 0b10101011 a b = .ok (.xor a b) ∧
    decode 0b10101100 a b = .ok (.shl a b) ∧ decode 0b10101101 a b = .ok (.shr a b)

/-- Every instruction's first byte gives its length and its path: `n + 1` bytes, `n` being bits 7:6 and at most 2, and bit 5
set exactly for the seven ALU instructions (R60, R61, R62, R68). -/
def Obligations.FirstByteGivesLengthAndPath : Prop :=
  ∀ i : Instr,
    (encode i).head? = some i.opcode ∧ (encode i).length = i.opcode.toNat / 64 + 1 ∧ i.opcode.toNat / 64 ≤ 2 ∧
    operandCount i.opcode = i.opcode.toNat / 64 ∧
    (i.opcode.toNat / 32 % 2 = 1 ↔
      ∃ a b, i ∈ [Instr.add a b, .sub a b, .mul a b, .div a b, .xor a b, .shl a b, .shr a b])

/-- Decoding and encoding agree in both directions, for every instruction and every operand byte: three fetched bytes decode to
`i` exactly when they begin with the encoding of `i` (R60 to R68, R71). -/
def Obligations.DecodeExactlyEncodings : Prop :=
  ∀ (i : Instr) (ir a b : Byte), decode ir a b = .ok i ↔ encode i <+: [ir, a, b]

/-- Every undefined byte is rejected under the name its bit 5 gives, whatever the operand bytes, and no defined byte is (R68 to
R70, R83; the two reasons are D17, the defined bytes D1). -/
def Obligations.UndefinedBytesRejectedByBitFive : Prop :=
  ∀ ir a b : Byte,
    (aluFlag ir = true ↔ ir.toNat / 32 % 2 = 1) ∧
    (decode ir a b = .error (.unsupportedOperation ir) ↔
      ir.toNat / 32 % 2 = 1 ∧ ir.toNat ∉ [0xA0, 0xA1, 0xA2, 0xA3, 0xAB, 0xAC, 0xAD]) ∧
    (decode ir a b = .error (.unknownOpcode ir) ↔
      ir.toNat / 32 % 2 = 0 ∧ ir.toNat ∉ [0x01, 0x11, 0x45, 0x46, 0x47, 0x50, 0x82])

/-- The lookahead bytes beyond the operand count do not reach the decoded instruction (R82, R86, R71). -/
def Obligations.UnusedLookaheadIgnored : Prop :=
  ∀ ir a b a' b' : Byte,
    (operandCount ir ≤ 1 → decode ir a b = decode ir a b') ∧
    (operandCount ir = 0 → decode ir a b = decode ir a' b')

/-! ## The step -/

/-- A running machine whose three fetch addresses lie in memory runs the instruction its bytes decode to; the step adds nothing
around it, the meaning writes the program counter (R81, R82). -/
def Obligations.StepRunsDecodedInstruction : Prop :=
  ∀ (s : State) (i : Instr), s.CanFetch →
    decode (s.mem.read s.pc.toNat) (s.mem.read (s.pc.toNat + 1)) (s.mem.read (s.pc.toNat + 2)) = .ok i →
    step s = exec i s

/-- A fetch with `pc` of 254 or more faults with address 256 before decoding, whatever bytes lie there (R82, R151; D4). -/
def Obligations.FetchPastTopFaults : Prop :=
  ∀ s : State, s.status = .running → 254 ≤ s.pc.toNat →
    step s = .next { s with status := .faulted (.outOfBounds .mem 256) }

/-- An undefined byte at the program counter faults before its operand bytes matter and changes nothing but the status: bit 5 set,
`UnsupportedOperation(ir, pc)`; bit 5 clear, `UnknownOpcode(ir, pc)`, the zero byte among them (R69, R70, R87, R110; D17). -/
def Obligations.UndefinedByteFaults : Prop :=
  ∀ s : State, s.CanFetch →
    (s.irByte.toNat / 32 % 2 = 1 → s.irByte.toNat ∉ [0xA0, 0xA1, 0xA2, 0xA3, 0xAB, 0xAC, 0xAD] →
      step s = .next { s with status := .faulted (.unsupportedOperation s.irByte s.pc) }) ∧
    (s.irByte.toNat / 32 % 2 = 0 → s.irByte.toNat ∉ [0x01, 0x11, 0x45, 0x46, 0x47, 0x50, 0x82] →
      step s = .next { s with status := .faulted (.unknownOpcode s.irByte s.pc) })

/-- The machine has a step exactly while it is running; in the two terminal states it has none, and the model stops by name
(R80, R27, R162; "no step" in them is D23, the two names are log 6). -/
def Obligations.StepExactlyWhileRunning : Prop :=
  ∀ s : State,
    ((∃ t, step s = .next t) ↔ s.status = .running) ∧
    (s.status = .halted → step s = .fault .noStepInHalted) ∧
    (∀ r, s.status = .faulted r → step s = .fault (.noStepInFaulted r))

/-- A step that ends in `Faulted` changed the status and nothing else: registers, memory, stack pointer, program counter and
output are as the previous instruction left them (R160). -/
def Obligations.FaultChangesOnlyStatus : Prop :=
  ∀ (s t : State) (r : FaultReason), step s = .next t → t.status = .faulted r →
    t = { s with status := .faulted r }

/-- `Halted` is entered only by HLT, which changes nothing else: the program counter keeps its address (R27, R122; D16). -/
def Obligations.HaltedOnlyByHlt : Prop :=
  ∀ s t : State, step s = .next t → t.status = .halted →
    s.irByte = 0b00000001 ∧ s.pc.toNat ≤ 253 ∧ t = { s with status := .halted }

/-- A step faults exactly when a fault is due by the list of R91, and with the first reason of that list: fetch bounds,
recognition, index of `a`, index of `b`, the instruction's own condition (R91, R159, R150 to R157; the order is D15, the guards
D4, D6, D11, D12). -/
def Obligations.FaultExactlyWhenDue : Prop :=
  ∀ (s t : State) (f : FaultReason), step s = .next t → (t.status = .faulted f ↔ s.dueFault = some f)

/-! ## Invariants -/

/-- Every step keeps the invariant: canonical memory inside 0 to 255, `STACK_LIMIT <= sp <= SP_INIT`, `pc <= 256`
(R23, R25, R28; D3, D11, D12). -/
def Obligations.StepKeepsInvariant : Prop :=
  ∀ s t : State, s.Inv → step s = .next t → t.Inv

/-- The reset states meet the invariant, for every value of `R7_RESET` and every legal `STACK_LIMIT` (R33, R5). -/
def Obligations.ResetMeetsInvariant : Prop :=
  State.reset.Inv ∧ ∀ r7 limit : Byte, limit.toNat ≤ 244 → (State.resetWith r7 limit).Inv

/-- The values after reset (R33, R180; register 7 is D13, log 3, and the `STACK_LIMIT` of a machine nobody launched is the
default 0 of R5, log 2). -/
def Obligations.ResetValues : Prop :=
  (∀ i, State.reset.reg i = 0) ∧ State.reset.pc.toNat = 0 ∧ State.reset.sp.toNat = 0xF4 ∧
    State.reset.status = .running ∧ (∀ a, State.reset.mem.read a = 0) ∧ State.reset.out = [] ∧
    State.reset.stackLimit = 0

/-- Launch: an image of at most 256 bytes and a `STACK_LIMIT` of at most `SP_INIT` have a launch state, which holds the image from
address 0, zeros behind it and every other piece of state at reset, and meets the invariant; a longer image or a greater
limit has none (R183, R5; D21). -/
def Obligations.LaunchPlacesImage : Prop :=
  ∀ (image : List Byte) (limit : Byte),
    (image.length ≤ 256 → limit.toNat ≤ 244 → ∃ s, State.launch image limit = some s ∧ s.Inv ∧
      (∀ a, s.mem.read a = image.getD a 0) ∧ s.x = State.reset.x ∧ s.pc = 0 ∧ s.sp = 0xF4 ∧
      s.status = .running ∧ s.out = [] ∧ s.stackLimit = limit) ∧
    (256 < image.length ∨ 244 < limit.toNat → State.launch image limit = none)

/-- In a run of any number of steps from a state that meets the invariant, no byte outside the stack region `STACK_LIMIT` to
`SP_INIT - 1` ever changes, and `STACK_LIMIT` does not change either: with the limit at the end of the image the program is
never overwritten (R46, R47, R133, R183). -/
def Obligations.RunChangesOnlyStackRegion : Prop :=
  ∀ (k : Nat) (s t : State), s.Inv → Sys2Proof.core.run k s = Host.Outcome.next t →
    t.stackLimit = s.stackLimit ∧ ∀ a, ¬ s.InStackRegion a → t.mem.read a = s.mem.read a

/-! ## Who changes what -/

/-- Only PUSH and CALL decrement the stack pointer and only POP and RET increment it; no other step changes it (R26; D26, D1). -/
def Obligations.StackPointerChangesOnlyByStackOps : Prop :=
  ∀ s t : State, step s = .next t → t.sp ≠ s.sp →
    (s.irByte ∈ [opcPush, opcCall] ∧ t.sp.toNat + 1 = s.sp.toNat) ∨
    (s.irByte ∈ [opcPop, opcRet] ∧ t.sp.toNat = s.sp.toNat + 1)

/-- Only PRN changes the output, and it appends exactly the byte of the register it names (R30, R121). -/
def Obligations.OutputChangesOnlyByPrn : Prop :=
  ∀ s t : State, step s = .next t → t.out ≠ s.out →
    s.irByte = opcPrn ∧ ∃ r : Fin 8, (r : Nat) = s.aByte.toNat ∧ t.out = s.out ++ [s.reg r]

/-- A general register changes only by an instruction that names it as operand `a` and is LDI, POP or an ALU instruction (R21). -/
def Obligations.RegistersChangeOnlyByNamingThem : Prop :=
  ∀ (s t : State) (r : Fin 8), step s = .next t → t.reg r ≠ s.reg r →
    (r : Nat) = s.aByte.toNat ∧
    s.irByte ∈ [opcLdi, opcPop, opcAdd, opcSub, opcMul, opcDiv, opcXor, opcShl, opcShr]

/-- A byte of memory changes only by PUSH or CALL, and it is the byte below the old stack pointer, at or above `STACK_LIMIT`
(R43, R44, R46, R133). -/
def Obligations.MemoryChangesOnlyByPushes : Prop :=
  ∀ (s t : State) (c : Nat), s.mem.wf → step s = .next t → t.mem.read c ≠ s.mem.read c →
    s.irByte ∈ [opcPush, opcCall] ∧ c + 1 = s.sp.toNat ∧ s.stackLimit.toNat ≤ c

/-- The output is never read: a machine that has printed more before takes the same steps and prints the same after (R30). -/
def Obligations.OutputNeverRead : Prop :=
  ∀ (s : State) (o : List Byte),
    (∀ t, step s = .next t → step { s with out := o ++ s.out } = .next { t with out := o ++ t.out }) ∧
    (∀ f, step s = .fault f → step { s with out := o ++ s.out } = .fault f)

/-- A table word stored by `withFetchWord` is the very next instruction to run (the model's own interface to the host, log 9). -/
def Obligations.StoredWordRunsNext : Prop :=
  ∀ (s : State) (nbits w : Nat) (i : Instr), s.mem.wf → decodeTableWord nbits w = some i →
    step (s.withFetchWord nbits w) = exec i (s.withFetchWord nbits w)

/-! ## Results, with the operands that complete and the operands that fault -/

/-- ADD (R103): `x[a] <- trunc8(x[a] + x[b])`, `pc <- pc + 3`, nothing else; the index faults are D6, their order D15. -/
def Obligations.AddWritesSumModulo256 : Prop :=
  ∀ (a b : Byte) (s : State), encode (.add a b) = [0xA0, a, b] ∧
    (∀ (ha : a.toNat < 8) (hb : b.toNat < 8), exec (.add a b) s = .next
      { s with
        x := s.x.set a.toNat (BitVec.ofNat 8 (((s.reg ⟨a.toNat, ha⟩).toNat + (s.reg ⟨b.toNat, hb⟩).toNat) % 256)) ha
        pc := s.pc + 3 }) ∧
    (8 ≤ a.toNat → exec (.add a b) s = .next { s with status := .faulted (.outOfBounds .reg a.toNat) }) ∧
    (a.toNat < 8 → 8 ≤ b.toNat → exec (.add a b) s = .next { s with status := .faulted (.outOfBounds .reg b.toNat) })

/-- SUB (R104): `x[a] <- trunc8(x[a] - x[b])` with the mathematical modulus, `pc <- pc + 3`, nothing else; the index faults are D6, their order D15. -/
def Obligations.SubWritesDifferenceModulo256 : Prop :=
  ∀ (a b : Byte) (s : State), encode (.sub a b) = [0xA1, a, b] ∧
    (∀ (ha : a.toNat < 8) (hb : b.toNat < 8), exec (.sub a b) s = .next
      { s with
        x := s.x.set a.toNat (BitVec.ofNat 8 ((256 + (s.reg ⟨a.toNat, ha⟩).toNat - (s.reg ⟨b.toNat, hb⟩).toNat) % 256)) ha
        pc := s.pc + 3 }) ∧
    (8 ≤ a.toNat → exec (.sub a b) s = .next { s with status := .faulted (.outOfBounds .reg a.toNat) }) ∧
    (a.toNat < 8 → 8 ≤ b.toNat → exec (.sub a b) s = .next { s with status := .faulted (.outOfBounds .reg b.toNat) })

/-- MUL (R105): the low 8 bits of the product, `pc <- pc + 3`, nothing else; the index faults are D6, their order D15. -/
def Obligations.MulWritesProductModulo256 : Prop :=
  ∀ (a b : Byte) (s : State), encode (.mul a b) = [0xA2, a, b] ∧
    (∀ (ha : a.toNat < 8) (hb : b.toNat < 8), exec (.mul a b) s = .next
      { s with
        x := s.x.set a.toNat (BitVec.ofNat 8 (((s.reg ⟨a.toNat, ha⟩).toNat * (s.reg ⟨b.toNat, hb⟩).toNat) % 256)) ha
        pc := s.pc + 3 }) ∧
    (8 ≤ a.toNat → exec (.mul a b) s = .next { s with status := .faulted (.outOfBounds .reg a.toNat) }) ∧
    (a.toNat < 8 → 8 ≤ b.toNat → exec (.mul a b) s = .next { s with status := .faulted (.outOfBounds .reg b.toNat) })

/-- DIV (R106): a non-zero divisor gives `floor(x[a] / x[b])`, a zero divisor `DivisionByZero(pc)` with nothing else changed; the index faults are D6, their order D15. The truncating quotient is D8. -/
def Obligations.DivWritesTruncatedQuotient : Prop :=
  ∀ (a b : Byte) (s : State), encode (.div a b) = [0xA3, a, b] ∧
    (∀ (ha : a.toNat < 8) (hb : b.toNat < 8), s.reg ⟨b.toNat, hb⟩ ≠ 0 → exec (.div a b) s = .next
      { s with
        x := s.x.set a.toNat (BitVec.ofNat 8 ((s.reg ⟨a.toNat, ha⟩).toNat / (s.reg ⟨b.toNat, hb⟩).toNat)) ha
        pc := s.pc + 3 }) ∧
    (∀ (_ : a.toNat < 8) (hb : b.toNat < 8), s.reg ⟨b.toNat, hb⟩ = 0 →
      exec (.div a b) s = .next { s with status := .faulted (.divisionByZero s.pc) }) ∧
    (8 ≤ a.toNat → exec (.div a b) s = .next { s with status := .faulted (.outOfBounds .reg a.toNat) }) ∧
    (a.toNat < 8 → 8 ≤ b.toNat → exec (.div a b) s = .next { s with status := .faulted (.outOfBounds .reg b.toNat) })

/-- XOR (R109): bit `k` of the result is 1 exactly where the operands' bits `k` differ, `pc <- pc + 3`, nothing else; the index faults are D6, their order D15. -/
def Obligations.XorWritesBitwiseDifference : Prop :=
  ∀ (a b : Byte) (s : State), encode (.xor a b) = [0xAB, a, b] ∧
    (∀ (ha : a.toNat < 8) (hb : b.toNat < 8), exec (.xor a b) s = .next
      { s with
        x := s.x.set a.toNat (BitVec.ofFnLE fun k : Fin 8 => (s.reg ⟨a.toNat, ha⟩)[k] != (s.reg ⟨b.toNat, hb⟩)[k]) ha
        pc := s.pc + 3 }) ∧
    (8 ≤ a.toNat → exec (.xor a b) s = .next { s with status := .faulted (.outOfBounds .reg a.toNat) }) ∧
    (a.toNat < 8 → 8 ≤ b.toNat → exec (.xor a b) s = .next { s with status := .faulted (.outOfBounds .reg b.toNat) })

/-- SHL (R107): `x[a] <- trunc8(x[a] * 2^x[b])`, the amount the whole byte, nothing else; truncation and amounts of 8 and more are D10, the index faults D6, their order D15. -/
def Obligations.ShlWritesTruncatedPower : Prop :=
  ∀ (a b : Byte) (s : State), encode (.shl a b) = [0xAC, a, b] ∧
    (∀ (ha : a.toNat < 8) (hb : b.toNat < 8), exec (.shl a b) s = .next
      { s with
        x := s.x.set a.toNat (BitVec.ofNat 8 ((s.reg ⟨a.toNat, ha⟩).toNat * 2 ^ (s.reg ⟨b.toNat, hb⟩).toNat % 256)) ha
        pc := s.pc + 3 }) ∧
    (8 ≤ a.toNat → exec (.shl a b) s = .next { s with status := .faulted (.outOfBounds .reg a.toNat) }) ∧
    (a.toNat < 8 → 8 ≤ b.toNat → exec (.shl a b) s = .next { s with status := .faulted (.outOfBounds .reg b.toNat) })

/-- SHR (R108): `x[a] <- floor(x[a] / 2^x[b])`, a logical right shift by the whole byte, nothing else; the direction is D9, amounts of 8 and more D10, the index faults D6, their order D15. -/
def Obligations.ShrWritesLogicalQuotient : Prop :=
  ∀ (a b : Byte) (s : State), encode (.shr a b) = [0xAD, a, b] ∧
    (∀ (ha : a.toNat < 8) (hb : b.toNat < 8), exec (.shr a b) s = .next
      { s with
        x := s.x.set a.toNat (BitVec.ofNat 8 ((s.reg ⟨a.toNat, ha⟩).toNat / 2 ^ (s.reg ⟨b.toNat, hb⟩).toNat)) ha
        pc := s.pc + 3 }) ∧
    (8 ≤ a.toNat → exec (.shr a b) s = .next { s with status := .faulted (.outOfBounds .reg a.toNat) }) ∧
    (a.toNat < 8 → 8 ≤ b.toNat → exec (.shr a b) s = .next { s with status := .faulted (.outOfBounds .reg b.toNat) })

/-- LDI (R120): `x[a] <- b`, the immediate unchanged, `pc <- pc + 3`, nothing else; `a` above 7 faults with nothing written (D6). -/
def Obligations.LdiWritesImmediate : Prop :=
  ∀ (a b : Byte) (s : State), encode (.ldi a b) = [0x82, a, b] ∧
    (∀ ha : a.toNat < 8, exec (.ldi a b) s = .next { s with x := s.x.set a.toNat b ha, pc := s.pc + 3 }) ∧
    (8 ≤ a.toNat → exec (.ldi a b) s = .next { s with status := .faulted (.outOfBounds .reg a.toNat) })

/-- PRN (R121): exactly one byte, the register's value, is appended to the output, `pc <- pc + 2`, nothing else; `a` above 7
faults with nothing emitted (D6). -/
def Obligations.PrnAppendsRegister : Prop :=
  ∀ (a : Byte) (s : State), encode (.prn a) = [0x47, a] ∧
    (∀ ha : a.toNat < 8, exec (.prn a) s = .next { s with out := s.out ++ [s.reg ⟨a.toNat, ha⟩], pc := s.pc + 2 }) ∧
    (8 ≤ a.toNat → exec (.prn a) s = .next { s with status := .faulted (.outOfBounds .reg a.toNat) })

/-- HLT (R122): `status <- Halted`, the program counter kept (D16) and nothing else changed, in every state and, from a fetch at 0
to 253, by one step; fetched at 254 or 255 it is never executed (D4), and after it there is no step (D23). -/
def Obligations.HltHalts : Prop :=
  encode .hlt = [0x01] ∧ (∀ s : State, exec .hlt s = .next { s with status := .halted }) ∧
    ∀ s : State, s.status = .running → s.irByte = opcHlt →
      (s.pc.toNat ≤ 253 → step s = .next { s with status := .halted } ∧
        step { s with status := .halted } = .fault .noStepInHalted) ∧
      (254 ≤ s.pc.toNat → step s = .next { s with status := .faulted (.outOfBounds .mem 256) })

/-- PUSH (R131): with room above `STACK_LIMIT` the stack pointer is decremented and the register's value stored at the new stack
pointer, every other byte and the register unchanged, `pc <- pc + 2`; `a` above 7 faults first (D6, D15), then a push that would
write below `STACK_LIMIT` (R133, D11), each with nothing changed. -/
def Obligations.PushStoresBelowTop : Prop :=
  ∀ (a : Byte) (s : State), s.mem.wf → encode (.push a) = [0x45, a] ∧
    (∀ ha : a.toNat < 8, s.stackLimit.toNat < s.sp.toNat →
      ∃ t, exec (.push a) s = .next t ∧ t.sp.toNat = s.sp.toNat - 1 ∧
        (∀ c, t.mem.read c = if c = s.sp.toNat - 1 then s.reg ⟨a.toNat, ha⟩ else s.mem.read c) ∧
        t = { s with sp := t.sp, mem := t.mem, pc := s.pc + 2 }) ∧
    (8 ≤ a.toNat → exec (.push a) s = .next { s with status := .faulted (.outOfBounds .reg a.toNat) }) ∧
    (a.toNat < 8 → s.sp.toNat ≤ s.stackLimit.toNat →
      exec (.push a) s = .next { s with status := .faulted (.stackOverflow s.pc) })

/-- POP (R132): from a stack that is not empty the register receives the byte at the stack pointer, which is then incremented,
memory unchanged, `pc <- pc + 2`; `a` above 7 faults first (D6, D15), then the empty stack (R134, D12), each with nothing changed. -/
def Obligations.PopLoadsTop : Prop :=
  ∀ (a : Byte) (s : State), encode (.pop a) = [0x46, a] ∧
    (∀ ha : a.toNat < 8, s.sp.toNat < 244 → exec (.pop a) s = .next
      { s with x := s.x.set a.toNat (s.mem.read s.sp.toNat) ha, sp := s.sp + 1, pc := s.pc + 2 }) ∧
    (8 ≤ a.toNat → exec (.pop a) s = .next { s with status := .faulted (.outOfBounds .reg a.toNat) }) ∧
    (a.toNat < 8 → 244 ≤ s.sp.toNat → exec (.pop a) s = .next { s with status := .faulted (.stackUnderflow s.pc) })

/-- CALL (R141): with room above `STACK_LIMIT` the address two past the CALL is pushed and the program counter takes the register's
old value, the register unchanged; `a` above 7 faults first (D6, D15), then a push below `STACK_LIMIT` (R133, D11), each with
nothing changed. The CALL was fetched, so its address is at most 253 (R82). -/
def Obligations.CallPushesReturnAndJumps : Prop :=
  ∀ (a : Byte) (s : State), s.mem.wf → s.pc.toNat ≤ 253 → encode (.call a) = [0x50, a] ∧
    (∀ ha : a.toNat < 8, s.stackLimit.toNat < s.sp.toNat →
      ∃ t, exec (.call a) s = .next t ∧ t.sp.toNat = s.sp.toNat - 1 ∧
        (t.mem.read (s.sp.toNat - 1)).toNat = s.pc.toNat + 2 ∧
        (∀ c, c ≠ s.sp.toNat - 1 → t.mem.read c = s.mem.read c) ∧
        t.pc.toNat = (s.reg ⟨a.toNat, ha⟩).toNat ∧ t = { s with sp := t.sp, mem := t.mem, pc := t.pc }) ∧
    (8 ≤ a.toNat → exec (.call a) s = .next { s with status := .faulted (.outOfBounds .reg a.toNat) }) ∧
    (a.toNat < 8 → s.sp.toNat ≤ s.stackLimit.toNat →
      exec (.call a) s = .next { s with status := .faulted (.stackOverflow s.pc) })

/-- RET (R142): from a stack that is not empty the program counter takes the byte at the stack pointer, zero-extended, and the
stack pointer is incremented, memory and registers unchanged; the empty stack faults with nothing changed (R134, D12). A RET at
254 or 255 is never executed: its fetch faults (R82, D4). -/
def Obligations.RetPopsProgramCounter : Prop :=
  ∀ s : State, encode .ret = [0x11] ∧
    (s.sp.toNat < 244 → ∃ t, exec .ret s = .next t ∧ t.pc.toNat = (s.mem.read s.sp.toNat).toNat ∧
      t.sp.toNat = s.sp.toNat + 1 ∧ t = { s with sp := t.sp, pc := t.pc }) ∧
    (244 ≤ s.sp.toNat → exec .ret s = .next { s with status := .faulted (.stackUnderflow s.pc) }) ∧
    (s.status = .running → s.irByte = 0x11 → 254 ≤ s.pc.toNat →
      step s = .next { s with status := .faulted (.outOfBounds .mem 256) })

/-! ## Frames -/

/-- What LDI and the seven ALU instructions leave alone: every register but the destination, every byte of memory, the stack
pointer, the output, `STACK_LIMIT`, and the status but for a fault, which then is the whole change (R21, R43, R100, R120). -/
def Obligations.RegisterWritersFrame : Prop :=
  ∀ (a b : Byte) (i : Instr) (s t : State),
    i ∈ [Instr.ldi a b, .add a b, .sub a b, .mul a b, .div a b, .xor a b, .shl a b, .shr a b] →
    exec i s = .next t →
    (∀ r : Fin 8, (r : Nat) ≠ a.toNat → t.reg r = s.reg r) ∧ (∀ c, t.mem.read c = s.mem.read c) ∧
      t.sp = s.sp ∧ t.out = s.out ∧ t.stackLimit = s.stackLimit ∧
      (t.status = s.status ∨ ∃ f, t = { s with status := .faulted f })

/-- What PUSH and CALL leave alone: every register, the output, `STACK_LIMIT`, every byte of memory but the one at the address the
push computes, `pushAddr`, the decremented stack pointer, and the status but for a fault, which then is the whole change (R131,
R141, R143). The stack pointer and the program counter are theirs to write. -/
def Obligations.PushCallFrame : Prop :=
  ∀ (a : Byte) (i : Instr) (s t : State), s.mem.wf → i ∈ [Instr.push a, .call a] → exec i s = .next t →
    t.x = s.x ∧ t.out = s.out ∧ t.stackLimit = s.stackLimit ∧
      (∀ c, c ≠ s.pushAddr.toNat → t.mem.read c = s.mem.read c) ∧
      (t.sp = s.sp ∨ t.sp = s.pushAddr) ∧
      (t.status = s.status ∨ ∃ f, t = { s with status := .faulted f })

/-- What POP and RET leave alone: every byte of memory, the output, `STACK_LIMIT`, every register but POP's destination, and the
status but for a fault, which then is the whole change (R132, R142). The stack pointer and the program counter are theirs. -/
def Obligations.PopRetFrame : Prop :=
  ∀ (a : Byte) (i : Instr) (s t : State), i ∈ [Instr.pop a, .ret] → exec i s = .next t →
    (∀ r : Fin 8, (i = .ret ∨ (r : Nat) ≠ a.toNat) → t.reg r = s.reg r) ∧ (∀ c, t.mem.read c = s.mem.read c) ∧
      t.out = s.out ∧ t.stackLimit = s.stackLimit ∧ (t.sp = s.sp ∨ t.sp = s.sp + 1) ∧
      (t.status = s.status ∨ ∃ f, t = { s with status := .faulted f })

/-- What PRN and HLT leave alone: every register, every byte of memory, the stack pointer, `STACK_LIMIT`; PRN the status but for a
fault, which then is the whole change; HLT the output and the program counter (R121, R122). -/
def Obligations.PrnHltFrame : Prop :=
  ∀ (a : Byte) (i : Instr) (s t : State), i ∈ [Instr.prn a, .hlt] → exec i s = .next t →
    t.x = s.x ∧ (∀ c, t.mem.read c = s.mem.read c) ∧ t.sp = s.sp ∧ t.stackLimit = s.stackLimit ∧
      (i = .prn a → t.status = s.status ∨ ∃ f, t = { s with status := .faulted f }) ∧
      (i = .hlt → t.status = .halted ∧ t.out = s.out ∧ t.pc = s.pc)

/-! ## Laws over several instructions -/

/-- The generic advance (R88): an instruction other than CALL, RET and HLT that completes without a fault leaves the program counter
`n + 1` further, `n` decoded from bits 7:6 of its opcode byte; the sum is exact and at most 256. -/
def Obligations.GenericAdvanceIsExact : Prop :=
  ∀ (s t : State) (i : Instr), s.CanFetch → decode s.irByte s.aByte s.bByte = .ok i →
    (∀ a, i ≠ .call a) → i ≠ .ret → i ≠ .hlt → step s = .next t → t.status = .running →
    t.pc.toNat = s.pc.toNat + s.irByte.toNat / 64 + 1 ∧ t.pc.toNat ≤ 256 ∧
      s.irByte.toNat / 64 = (if i ∈ [Instr.prn s.aByte, .push s.aByte, .pop s.aByte] then 1 else 2)

/-- The round trip (R135): PUSH of a register and at once POP of the same register restore the register and the stack pointer and
leave the program counter 4 further; only the byte below the old stack pointer may have changed. The pushed byte must not fall
on the POP's own two bytes, the side condition R135 derives from R50, and the POP is fetched inside memory (R82). -/
def Obligations.PushThenPopRoundTrip : Prop :=
  ∀ (s : State) (a : Byte), s.Inv → s.status = .running → s.pc.toNat ≤ 251 → a.toNat < 8 →
    s.mem.read s.pc.toNat = opcPush → s.mem.read (s.pc.toNat + 1) = a →
    s.mem.read (s.pc.toNat + 2) = opcPop → s.mem.read (s.pc.toNat + 3) = a →
    s.stackLimit.toNat < s.sp.toNat →
    s.sp.toNat ≠ s.pc.toNat + 3 → s.sp.toNat ≠ s.pc.toNat + 4 →
    ∃ t u, step s = .next t ∧ step t = .next u ∧ u.x = s.x ∧ u.sp = s.sp ∧ u.pc.toNat = s.pc.toNat + 4 ∧
      u.status = .running ∧ u.out = s.out ∧ u.stackLimit = s.stackLimit ∧
      ∀ c, u.mem.read c = if c + 1 = s.sp.toNat then s.x[a.toNat]?.getD 0 else s.mem.read c

/-- The call-return law (R144): after a CALL at address `p` that completes, a subroutine that has left the stack pointer and the
byte on top as it found them and executes RET resumes at `p + 2` with the stack pointer from before the CALL. -/
def Obligations.CallThenReturnResumes : Prop :=
  ∀ (s t u : State), s.Inv → s.CanFetch → s.irByte = opcCall → step s = .next t → t.status = .running →
    u.CanFetch → u.irByte = opcRet → u.sp = t.sp → u.mem.read u.sp.toNat = t.mem.read t.sp.toNat →
    ∃ v, step u = .next v ∧ v.status = .running ∧ v.pc.toNat = s.pc.toNat + 2 ∧ v.sp = s.sp ∧
      v.x = u.x ∧ v.mem = u.mem ∧ v.out = u.out

/-- Load then print (R120, R121): LDI of any byte into any register and then PRN of that register append exactly that byte. -/
def Obligations.LoadThenPrintEmitsImmediate : Prop :=
  ∀ (s : State) (a v : Byte), s.status = .running → s.pc.toNat ≤ 250 → a.toNat < 8 →
    s.mem.read s.pc.toNat = opcLdi → s.mem.read (s.pc.toNat + 1) = a → s.mem.read (s.pc.toNat + 2) = v →
    s.mem.read (s.pc.toNat + 3) = opcPrn → s.mem.read (s.pc.toNat + 4) = a →
    ∃ t u, step s = .next t ∧ step t = .next u ∧ u.out = s.out ++ [v] ∧ u.pc.toNat = s.pc.toNat + 5 ∧
      u.status = .running ∧ u.mem = s.mem ∧ u.sp = s.sp

/-- Divide then multiply (R102): dividing by a non-zero register and multiplying the quotient by it falls short of the dividend by
less than the divisor, and meets it exactly when the divisor divides it. Truncating unsigned division is D7 and D8. -/
def Obligations.DivideThenMultiplyBounds : Prop :=
  ∀ (s : State) (a b : Byte) (ha : a.toNat < 8) (hb : b.toNat < 8), a ≠ b → s.reg ⟨b.toNat, hb⟩ ≠ 0 →
    ∃ t u, exec (.div a b) s = .next t ∧ exec (.mul a b) t = .next u ∧
      (u.reg ⟨a.toNat, ha⟩).toNat ≤ (s.reg ⟨a.toNat, ha⟩).toNat ∧
      (s.reg ⟨a.toNat, ha⟩).toNat - (u.reg ⟨a.toNat, ha⟩).toNat < (s.reg ⟨b.toNat, hb⟩).toNat ∧
      (u.reg ⟨a.toNat, ha⟩ = s.reg ⟨a.toNat, ha⟩ ↔
        (s.reg ⟨b.toNat, hb⟩).toNat ∣ (s.reg ⟨a.toNat, ha⟩).toNat)

/-- The same register as source and destination (R104, R106, R108, R109): XOR, SUB and SHR clear it for every content, and DIV gives
1 where it is not zero. -/
def Obligations.SelfOperandResults : Prop :=
  ∀ (s : State) (a : Byte) (ha : a.toNat < 8),
    (∃ t, exec (.xor a a) s = .next t ∧ t.reg ⟨a.toNat, ha⟩ = 0) ∧
    (∃ t, exec (.sub a a) s = .next t ∧ t.reg ⟨a.toNat, ha⟩ = 0) ∧
    (∃ t, exec (.shr a a) s = .next t ∧ t.reg ⟨a.toNat, ha⟩ = 0) ∧
    (s.reg ⟨a.toNat, ha⟩ ≠ 0 → ∃ t, exec (.div a a) s = .next t ∧ t.reg ⟨a.toNat, ha⟩ = 1)

/-- Shift amounts of 8 to 255 are not reduced and give 0 in both directions (R107, R108; D10). -/
def Obligations.LargeShiftsClear : Prop :=
  ∀ (s : State) (a b : Byte) (ha : a.toNat < 8) (hb : b.toNat < 8), 8 ≤ (s.reg ⟨b.toNat, hb⟩).toNat →
    (∃ t, exec (.shl a b) s = .next t ∧ t.reg ⟨a.toNat, ha⟩ = 0) ∧
    (∃ t, exec (.shr a b) s = .next t ∧ t.reg ⟨a.toNat, ha⟩ = 0)

/-- A store is seen by the very next fetch (R50, R189): a PUSH whose byte lands on the opcode byte of the next instruction makes the
pushed value that opcode byte, and the next step runs what it then decodes to. -/
def Obligations.PushedOpcodeRunsNext : Prop :=
  ∀ (s : State) (a : Byte) (ha : a.toNat < 8) (i : Instr), s.Inv → s.status = .running → s.pc.toNat ≤ 251 →
    s.mem.read s.pc.toNat = opcPush → s.mem.read (s.pc.toNat + 1) = a → s.stackLimit.toNat < s.sp.toNat →
    s.sp.toNat = s.pc.toNat + 3 →
    decode (s.reg ⟨a.toNat, ha⟩) (s.mem.read (s.pc.toNat + 3)) (s.mem.read (s.pc.toNat + 4)) = .ok i →
    ∃ t, step s = .next t ∧ t.pc.toNat = s.pc.toNat + 2 ∧ step t = exec i t
end

