-- ==== Sys2Proof/Laws/Decode.lean ====
section
/-! SUPPORT. The fields of the fourteen opcode bytes, and what the decoder answers, said once. -/

namespace Sys2Proof

@[simp] theorem operandCount_opcLdi : operandCount opcLdi = 2 := rfl
@[simp] theorem operandCount_opcPrn : operandCount opcPrn = 1 := rfl
@[simp] theorem operandCount_opcPush : operandCount opcPush = 1 := rfl
@[simp] theorem operandCount_opcPop : operandCount opcPop = 1 := rfl
@[simp] theorem operandCount_opcAdd : operandCount opcAdd = 2 := rfl
@[simp] theorem operandCount_opcSub : operandCount opcSub = 2 := rfl
@[simp] theorem operandCount_opcMul : operandCount opcMul = 2 := rfl
@[simp] theorem operandCount_opcDiv : operandCount opcDiv = 2 := rfl
@[simp] theorem operandCount_opcXor : operandCount opcXor = 2 := rfl
@[simp] theorem operandCount_opcShl : operandCount opcShl = 2 := rfl
@[simp] theorem operandCount_opcShr : operandCount opcShr = 2 := rfl

/-! ## What each opcode byte decodes to -/

theorem decode_ldi (a b : Byte) : decode opcLdi a b = .ok (.ldi a b) := by
  unfold decode decodeAlu decodeTable
  rfl

theorem decode_prn (a b : Byte) : decode opcPrn a b = .ok (.prn a) := by
  unfold decode decodeAlu decodeTable
  rfl

theorem decode_hlt (a b : Byte) : decode opcHlt a b = .ok .hlt := by
  unfold decode decodeAlu decodeTable
  rfl

theorem decode_push (a b : Byte) : decode opcPush a b = .ok (.push a) := by
  unfold decode decodeAlu decodeTable
  rfl

theorem decode_pop (a b : Byte) : decode opcPop a b = .ok (.pop a) := by
  unfold decode decodeAlu decodeTable
  rfl

theorem decode_call (a b : Byte) : decode opcCall a b = .ok (.call a) := by
  unfold decode decodeAlu decodeTable
  rfl

theorem decode_ret (a b : Byte) : decode opcRet a b = .ok .ret := by
  unfold decode decodeAlu decodeTable
  rfl

theorem decode_add (a b : Byte) : decode opcAdd a b = .ok (.add a b) := by
  unfold decode decodeAlu decodeTable
  rfl

theorem decode_sub (a b : Byte) : decode opcSub a b = .ok (.sub a b) := by
  unfold decode decodeAlu decodeTable
  rfl

theorem decode_mul (a b : Byte) : decode opcMul a b = .ok (.mul a b) := by
  unfold decode decodeAlu decodeTable
  rfl

theorem decode_div (a b : Byte) : decode opcDiv a b = .ok (.div a b) := by
  unfold decode decodeAlu decodeTable
  rfl

theorem decode_xor (a b : Byte) : decode opcXor a b = .ok (.xor a b) := by
  unfold decode decodeAlu decodeTable
  rfl

theorem decode_shl (a b : Byte) : decode opcShl a b = .ok (.shl a b) := by
  unfold decode decodeAlu decodeTable
  rfl

theorem decode_shr (a b : Byte) : decode opcShr a b = .ok (.shr a b) := by
  unfold decode decodeAlu decodeTable
  rfl

/-- An instruction the decoder answers has the fetched byte as its opcode byte. -/
theorem opcode_of_decode {ir a b : Byte} {i : Instr} (h : decode ir a b = .ok i) : i.opcode = ir := by
  unfold decode decodeAlu decodeTable at h
  repeat' split at h
  all_goals first
    | (cases h; subst_vars; rfl)
    | cases h

/-- A rejection carries the fetched byte, and its name follows the ALU flag (R69, R70). -/
theorem reject_of_decode {ir a b : Byte} {e : Reject} (h : decode ir a b = .error e) :
    (aluFlag ir = true ∧ e = .unsupportedOperation ir) ∨ (aluFlag ir = false ∧ e = .unknownOpcode ir) := by
  unfold decode decodeAlu decodeTable at h
  repeat' split at h
  all_goals first
    | (cases h; simp_all)
    | cases h

end Sys2Proof
end

