-- ==== Sys2Proof/Laws/Memory.lean ====
section
/-! SUPPORT. The laws of the memory operations: read after write, the canonical form kept, equal reads equal memories. -/

namespace Sys2Proof.Machine

@[simp] theorem Memory.read_nil (a : Nat) : Memory.read [] a = Memory.unlisted := rfl

theorem Memory.read_cons (c : Host.Cell) (m : Memory) (a : Nat) :
    Memory.read (c :: m) a = if c.1 = a then c.2 else Memory.read m a := rfl

/-- An address below every listed one is unlisted. -/
theorem Memory.read_of_lt {m : Memory} {a : Nat} (h : ∀ c ∈ m, a < c.1) : m.read a = Memory.unlisted := by
  induction m with
  | nil => rfl
  | cons c m ih =>
    have hc : c.1 ≠ a := Nat.ne_of_gt (h c (by simp))
    rw [Memory.read_cons, if_neg hc]
    exact ih fun d hd => h d (by simp [hd])

/-- What `cons` reads as, where its address is listed nowhere behind it. -/
theorem Memory.read_cons_unlisted {a : Nat} {v : Byte} {m : Memory} (h : ∀ c ∈ m, a < c.1) (b : Nat) :
    (Memory.cons a v m).read b = if b = a then v else m.read b := by
  unfold Memory.cons
  by_cases hv : v = Memory.unlisted
  · by_cases hb : b = a
    · simp [hv, hb, Memory.read_of_lt h]
    · simp [hv, hb]
  · simp [hv, Memory.read_cons, eq_comm]

/-- `cons` lists its own cell and those behind it, and no other. -/
theorem Memory.mem_cons {a : Nat} {v : Byte} {m : Memory} {c : Host.Cell} (h : c ∈ Memory.cons a v m) :
    (c = (a, v) ∧ v ≠ Memory.unlisted) ∨ c ∈ m := by
  unfold Memory.cons at h
  split at h
  · exact .inr h
  · rcases List.mem_cons.mp h with h | h
    · exact .inl ⟨h, ‹_›⟩
    · exact .inr h

/-- A written memory lists the written cell and cells that were listed, and no other. -/
theorem Memory.mem_write {m : Memory} {a : Nat} {v : Byte} {c : Host.Cell} (h : c ∈ m.write a v) :
    (c = (a, v) ∧ v ≠ Memory.unlisted) ∨ c ∈ m := by
  induction m with
  | nil => simpa using Memory.mem_cons h
  | cons d m ih =>
    unfold Memory.write at h
    split at h
    · exact Memory.mem_cons h
    · split at h
      · exact (Memory.mem_cons h).imp_right fun h => by simp [h]
      · rcases List.mem_cons.mp h with h | h
        · exact .inr (by simp [h])
        · exact (ih h).imp_right fun h => by simp [h]

/-- The canonical form of a memory's tail. -/
theorem Memory.wf_tail {c : Host.Cell} {m : Memory} (h : Memory.wf (c :: m)) : m.wf :=
  ⟨(List.pairwise_cons.mp h.1).2, fun d hd => h.2 d (by simp [hd])⟩

/-- The cells of a canonical memory behind the first have greater addresses. -/
theorem Memory.wf_head_lt {c : Host.Cell} {m : Memory} (h : Memory.wf (c :: m)) : ∀ d ∈ m, c.1 < d.1 :=
  (List.pairwise_cons.mp h.1).1

/-- The canonical form is kept by listing a cell in front of greater addresses. -/
theorem Memory.wf_cons {a : Nat} {v : Byte} {m : Memory} (ha : a < 256) (hm : m.wf)
    (h : ∀ c ∈ m, a < c.1) : (Memory.cons a v m).wf := by
  unfold Memory.cons
  split
  · exact hm
  · refine ⟨List.pairwise_cons.mpr ⟨h, hm.1⟩, fun c hc => ?_⟩
    rcases List.mem_cons.mp hc with rfl | hc
    · exact ⟨ha, ‹_›⟩
    · exact hm.2 c hc

/-- A write inside memory keeps the canonical form. -/
theorem Memory.write_wf {m : Memory} {a : Nat} {v : Byte} (hm : m.wf) (ha : a < 256) :
    (m.write a v).wf := by
  induction m with
  | nil => exact Memory.wf_cons ha hm (by simp)
  | cons c m ih =>
    have hlt := Memory.wf_head_lt hm
    unfold Memory.write
    split
    · refine Memory.wf_cons ha hm fun d hd => ?_
      rcases List.mem_cons.mp hd with rfl | hd
      · assumption
      · have := hlt d hd; omega
    · split
      · subst a
        exact Memory.wf_cons ha (Memory.wf_tail hm) hlt
      · have ht := ih (Memory.wf_tail hm)
        refine ⟨List.pairwise_cons.mpr ⟨fun d hd => ?_, ht.1⟩, fun d hd => ?_⟩
        · rcases Memory.mem_write hd with ⟨rfl, -⟩ | hd
          · simp only; omega
          · exact hlt d hd
        · rcases List.mem_cons.mp hd with rfl | hd
          · exact hm.2 _ (by simp)
          · exact ht.2 d hd

/-- What a canonical memory reads as after a write: the byte written at the address, the old byte everywhere else (R44, R48). -/
theorem Memory.read_write {m : Memory} (hm : m.wf) (a : Nat) (v : Byte) (b : Nat) :
    (m.write a v).read b = if b = a then v else m.read b := by
  induction m with
  | nil => exact Memory.read_cons_unlisted (by simp) b
  | cons c m ih =>
    have hlt := Memory.wf_head_lt hm
    unfold Memory.write
    split
    · refine Memory.read_cons_unlisted (fun d hd => ?_) b
      rcases List.mem_cons.mp hd with rfl | hd
      · assumption
      · have := hlt d hd; omega
    · split
      · subst a
        rw [Memory.read_cons_unlisted hlt]
        by_cases hb : b = c.1
        · simp [hb]
        · simp [hb, Memory.read_cons, Ne.symm hb]
      · rw [Memory.read_cons, ih (Memory.wf_tail hm), Memory.read_cons]
        by_cases hb : b = a
        · simp_all
        · simp [hb]

/-- Reading back the byte just written, in any memory. -/
theorem Memory.read_write_same (m : Memory) (hm : m.wf) (a : Nat) (v : Byte) : (m.write a v).read a = v := by
  simp [Memory.read_write hm]

/-- A write leaves every other address alone. -/
theorem Memory.read_write_other (m : Memory) (hm : m.wf) {a b : Nat} (v : Byte) (h : b ≠ a) :
    (m.write a v).read b = m.read b := by
  simp [Memory.read_write hm, h]

/-- Loading bytes inside memory keeps the canonical form. -/
theorem Memory.load_wf {m : Memory} {a : Nat} {image : List Byte} (hm : m.wf) (h : a + image.length ≤ 256) :
    (m.load a image).wf := by
  induction image generalizing m a with
  | nil => exact hm
  | cons v rest ih =>
    simp only [List.length_cons] at h
    exact ih (Memory.write_wf hm (by omega)) (by omega)

/-- What memory reads as after a load: the image where it was placed, the old byte everywhere else. -/
theorem Memory.read_load {m : Memory} {a : Nat} {image : List Byte} (hm : m.wf)
    (h : a + image.length ≤ 256) (b : Nat) :
    (m.load a image).read b = if a ≤ b then (image[b - a]?).getD (m.read b) else m.read b := by
  induction image generalizing m a with
  | nil => simp [Memory.load]
  | cons v rest ih =>
    simp only [List.length_cons] at h
    rw [Memory.load, ih (Memory.write_wf hm (by omega)) (by omega), Memory.read_write hm]
    rcases Nat.lt_trichotomy b a with hb | rfl | hb
    · rw [if_neg (by omega), if_neg (by omega), if_neg (by omega)]
    · simp
    · obtain ⟨k, rfl⟩ : ∃ k, b = a + 1 + k := ⟨b - (a + 1), by omega⟩
      simp [show a + 1 + k - a = k + 1 by omega, show a + 1 + k ≠ a by omega, show a ≤ a + 1 + k by omega]

/-- Equal reads, equal memories: the canonical form leaves one list for each content. -/
theorem Memory.ext_read {m n : Memory} (hm : m.wf) (hn : n.wf) (h : ∀ a, m.read a = n.read a) : m = n := by
  induction m generalizing n with
  | nil =>
    cases n with
    | nil => rfl
    | cons d n =>
      have hd := h d.1
      exact absurd (by simpa [Memory.read_cons] using hd.symm) (hn.2 d (by simp)).2
  | cons c m ih =>
    cases n with
    | nil =>
      have hc := h c.1
      exact absurd (by simpa [Memory.read_cons] using hc) (hm.2 c (by simp)).2
    | cons d n =>
      have hcm := Memory.wf_head_lt hm
      have hdn := Memory.wf_head_lt hn
      have key : c.1 = d.1 := by
        rcases Nat.lt_trichotomy c.1 d.1 with hlt | heq | hlt
        · have hu : Memory.read (d :: n) c.1 = Memory.unlisted := Memory.read_of_lt fun e he => by
            rcases List.mem_cons.mp he with rfl | he
            · exact hlt
            · have := hdn e he; omega
          have hc := h c.1
          rw [hu, Memory.read_cons, if_pos rfl] at hc
          exact absurd hc (hm.2 c (by simp)).2
        · exact heq
        · have hu : Memory.read (c :: m) d.1 = Memory.unlisted := Memory.read_of_lt fun e he => by
            rcases List.mem_cons.mp he with rfl | he
            · exact hlt
            · have := hcm e he; omega
          have hd := h d.1
          rw [hu, Memory.read_cons, if_pos rfl] at hd
          exact absurd hd.symm (hn.2 d (by simp)).2
      have hv : c.2 = d.2 := by
        have hc := h c.1
        rwa [Memory.read_cons, if_pos rfl, Memory.read_cons, if_pos key.symm] at hc
      have htail : m = n := ih (Memory.wf_tail hm) (Memory.wf_tail hn) fun a => by
        by_cases ha : c.1 = a
        · subst ha
          rw [Memory.read_of_lt hcm, Memory.read_of_lt (key ▸ hdn)]
        · have := h a
          rwa [Memory.read_cons, if_neg ha, Memory.read_cons, if_neg (key ▸ ha)] at this
      rw [htail, show c = d from Prod.ext key hv]

end Sys2Proof.Machine
end

