-- ==== Sys2Proof/Laws/State.lean ====
section
/-! SUPPORT. One lemma per field per update of State, so that no proof unfolds a record update. -/

namespace Sys2Proof.Machine

variable (s : State)

@[simp] theorem State.setReg_x (i : Fin Config.nreg) (v : Byte) : (s.setReg i v).x = s.x.set i v := rfl
@[simp] theorem State.setReg_pc (i : Fin Config.nreg) (v : Byte) : (s.setReg i v).pc = s.pc := rfl
@[simp] theorem State.setReg_sp (i : Fin Config.nreg) (v : Byte) : (s.setReg i v).sp = s.sp := rfl
@[simp] theorem State.setReg_status (i : Fin Config.nreg) (v : Byte) : (s.setReg i v).status = s.status := rfl
@[simp] theorem State.setReg_mem (i : Fin Config.nreg) (v : Byte) : (s.setReg i v).mem = s.mem := rfl
@[simp] theorem State.setReg_out (i : Fin Config.nreg) (v : Byte) : (s.setReg i v).out = s.out := rfl
@[simp] theorem State.setReg_stackLimit (i : Fin Config.nreg) (v : Byte) : (s.setReg i v).stackLimit = s.stackLimit := rfl

@[simp] theorem State.setByte_x (a : Nat) (v : Byte) : (s.setByte a v).x = s.x := rfl
@[simp] theorem State.setByte_pc (a : Nat) (v : Byte) : (s.setByte a v).pc = s.pc := rfl
@[simp] theorem State.setByte_sp (a : Nat) (v : Byte) : (s.setByte a v).sp = s.sp := rfl
@[simp] theorem State.setByte_status (a : Nat) (v : Byte) : (s.setByte a v).status = s.status := rfl
@[simp] theorem State.setByte_mem (a : Nat) (v : Byte) : (s.setByte a v).mem = s.mem.write a v := rfl
@[simp] theorem State.setByte_out (a : Nat) (v : Byte) : (s.setByte a v).out = s.out := rfl
@[simp] theorem State.setByte_stackLimit (a : Nat) (v : Byte) : (s.setByte a v).stackLimit = s.stackLimit := rfl
@[simp] theorem State.setByte_reg (a : Nat) (v : Byte) (j : Fin Config.nreg) : (s.setByte a v).reg j = s.reg j := rfl

@[simp] theorem State.advance_x (ir : Byte) : (s.advance ir).x = s.x := rfl
@[simp] theorem State.advance_pc (ir : Byte) : (s.advance ir).pc = s.pc + BitVec.ofNat 9 (operandCount ir + 1) := rfl
@[simp] theorem State.advance_sp (ir : Byte) : (s.advance ir).sp = s.sp := rfl
@[simp] theorem State.advance_status (ir : Byte) : (s.advance ir).status = s.status := rfl
@[simp] theorem State.advance_mem (ir : Byte) : (s.advance ir).mem = s.mem := rfl
@[simp] theorem State.advance_out (ir : Byte) : (s.advance ir).out = s.out := rfl
@[simp] theorem State.advance_stackLimit (ir : Byte) : (s.advance ir).stackLimit = s.stackLimit := rfl
@[simp] theorem State.advance_reg (ir : Byte) (j : Fin Config.nreg) : (s.advance ir).reg j = s.reg j := rfl

@[simp] theorem State.jump_x (t : Byte) : (s.jump t).x = s.x := rfl
@[simp] theorem State.jump_pc (t : Byte) : (s.jump t).pc = zext9 t := rfl
@[simp] theorem State.jump_sp (t : Byte) : (s.jump t).sp = s.sp := rfl
@[simp] theorem State.jump_status (t : Byte) : (s.jump t).status = s.status := rfl
@[simp] theorem State.jump_mem (t : Byte) : (s.jump t).mem = s.mem := rfl
@[simp] theorem State.jump_out (t : Byte) : (s.jump t).out = s.out := rfl
@[simp] theorem State.jump_stackLimit (t : Byte) : (s.jump t).stackLimit = s.stackLimit := rfl
@[simp] theorem State.jump_reg (t : Byte) (j : Fin Config.nreg) : (s.jump t).reg j = s.reg j := rfl

@[simp] theorem State.setSp_x (v : Byte) : (s.setSp v).x = s.x := rfl
@[simp] theorem State.setSp_pc (v : Byte) : (s.setSp v).pc = s.pc := rfl
@[simp] theorem State.setSp_sp (v : Byte) : (s.setSp v).sp = v := rfl
@[simp] theorem State.setSp_status (v : Byte) : (s.setSp v).status = s.status := rfl
@[simp] theorem State.setSp_mem (v : Byte) : (s.setSp v).mem = s.mem := rfl
@[simp] theorem State.setSp_out (v : Byte) : (s.setSp v).out = s.out := rfl
@[simp] theorem State.setSp_stackLimit (v : Byte) : (s.setSp v).stackLimit = s.stackLimit := rfl
@[simp] theorem State.setSp_reg (v : Byte) (j : Fin Config.nreg) : (s.setSp v).reg j = s.reg j := rfl

@[simp] theorem State.emit_x (v : Byte) : (s.emit v).x = s.x := rfl
@[simp] theorem State.emit_pc (v : Byte) : (s.emit v).pc = s.pc := rfl
@[simp] theorem State.emit_sp (v : Byte) : (s.emit v).sp = s.sp := rfl
@[simp] theorem State.emit_status (v : Byte) : (s.emit v).status = s.status := rfl
@[simp] theorem State.emit_mem (v : Byte) : (s.emit v).mem = s.mem := rfl
@[simp] theorem State.emit_out (v : Byte) : (s.emit v).out = s.out ++ [v] := rfl
@[simp] theorem State.emit_stackLimit (v : Byte) : (s.emit v).stackLimit = s.stackLimit := rfl
@[simp] theorem State.emit_reg (v : Byte) (j : Fin Config.nreg) : (s.emit v).reg j = s.reg j := rfl

@[simp] theorem State.halt_x : (s.halt).x = s.x := rfl
@[simp] theorem State.halt_pc : (s.halt).pc = s.pc := rfl
@[simp] theorem State.halt_sp : (s.halt).sp = s.sp := rfl
@[simp] theorem State.halt_status : (s.halt).status = .halted := rfl
@[simp] theorem State.halt_mem : (s.halt).mem = s.mem := rfl
@[simp] theorem State.halt_out : (s.halt).out = s.out := rfl
@[simp] theorem State.halt_stackLimit : (s.halt).stackLimit = s.stackLimit := rfl
@[simp] theorem State.halt_reg (j : Fin Config.nreg) : (s.halt).reg j = s.reg j := rfl

@[simp] theorem State.raise_x (f : FaultReason) : (s.raise f).x = s.x := rfl
@[simp] theorem State.raise_pc (f : FaultReason) : (s.raise f).pc = s.pc := rfl
@[simp] theorem State.raise_sp (f : FaultReason) : (s.raise f).sp = s.sp := rfl
@[simp] theorem State.raise_status (f : FaultReason) : (s.raise f).status = .faulted f := rfl
@[simp] theorem State.raise_mem (f : FaultReason) : (s.raise f).mem = s.mem := rfl
@[simp] theorem State.raise_out (f : FaultReason) : (s.raise f).out = s.out := rfl
@[simp] theorem State.raise_stackLimit (f : FaultReason) : (s.raise f).stackLimit = s.stackLimit := rfl
@[simp] theorem State.raise_reg (f : FaultReason) (j : Fin Config.nreg) : (s.raise f).reg j = s.reg j := rfl

/-- Reading the register just written. -/
@[simp] theorem State.setReg_reg_same (i : Fin Config.nreg) (v : Byte) : (s.setReg i v).reg i = v := by
  simp [State.reg]

/-- Writing a register leaves every other register alone. -/
theorem State.setReg_reg_other {i j : Fin Config.nreg} (v : Byte) (h : j ≠ i) : (s.setReg i v).reg j = s.reg j := by
  have hij : (i : Nat) ≠ j := fun e => h (Fin.ext e.symm)
  simp [State.reg, hij]

/-- Two raised faults leave the last reason. -/
@[simp] theorem State.raise_raise (f g : FaultReason) : (s.raise f).raise g = s.raise g := rfl

end Sys2Proof.Machine
end

