-- ==== Sys2Proof/Laws/Ops.lean ====
section
/-! SUPPORT. One specification lemma per shared operation: everything it can do, so that callers cite it. -/

namespace Sys2Proof.Machine

/-! ## Sequencing -/

@[simp] theorem ok_bind {α β : Type} (a : α) (k : α → Except FaultReason β) : (Except.ok a >>= k) = k a := rfl

@[simp] theorem error_bind {α β : Type} (f : FaultReason) (k : α → Except FaultReason β) :
    (Except.error f >>= k) = .error f := rfl

@[simp] theorem pure_eq_ok {α : Type} (a : α) : (pure a : Except FaultReason α) = .ok a := rfl

/-- A computation that went well took each of its parts well. -/
theorem bind_eq_ok {α β : Type} {m : Except FaultReason α} {k : α → Except FaultReason β} {b : β} :
    (m >>= k) = .ok b ↔ ∃ a, m = .ok a ∧ k a = .ok b := by
  cases m <;> simp

@[simp] theorem commit_ok (s t : State) : commit s (.ok t) = .next t := rfl

@[simp] theorem commit_error (s : State) (f : FaultReason) : commit s (.error f) = .next (s.raise f) := rfl

/-- An instruction answers a next state: that of all its writes, or its start with a fault taken (R12, R161). -/
theorem commit_eq_next {s t : State} {r : Except FaultReason State} (h : commit s r = .next t) :
    r = .ok t ∨ ∃ f, r = .error f ∧ t = s.raise f := by
  cases r with
  | ok u => simp_all [commit]
  | error f => simp_all [commit]

/-! ## Memory access -/

@[simp] theorem State.memRead_of_lt {s : State} {a : Nat} (h : a < 256) :
    s.memRead a = .ok (s.mem.read a) := if_pos h

@[simp] theorem State.memWrite_of_lt {s : State} {a : Nat} {v : Byte} (h : a < 256) :
    s.memWrite a v = .ok (s.setByte a v) := if_pos h

/-- An access outside memory faults with the offending address (R11, R52). -/
theorem State.memRead_of_ge {s : State} {a : Nat} (h : 256 ≤ a) :
    s.memRead a = .error (.outOfBounds .mem a) := if_neg (Nat.not_lt.mpr h)

/-- A store outside memory faults with the offending address (R11, R52). -/
theorem State.memWrite_of_ge {s : State} {a : Nat} {v : Byte} (h : 256 ≤ a) :
    s.memWrite a v = .error (.outOfBounds .mem a) := if_neg (Nat.not_lt.mpr h)

/-! ## Operands -/

/-- A register operand below 8 selects that register. -/
theorem regIndex_of_lt {a : Byte} (h : a.toNat < 8) : regIndex a = .ok ⟨a.toNat, h⟩ := dif_pos h

/-- A register operand of 8 or more faults with the index. -/
theorem regIndex_of_ge {a : Byte} (h : 8 ≤ a.toNat) : regIndex a = .error (.outOfBounds .reg a.toNat) :=
  dif_neg (Nat.not_lt.mpr h)

/-- What a register operand that went well says. -/
theorem regIndex_eq_ok {a : Byte} {i : Fin Config.nreg} (h : regIndex a = .ok i) : (i : Nat) = a.toNat := by
  unfold regIndex at h
  split at h <;> cases h
  rfl

/-- What a register operand that faulted says. -/
theorem regIndex_eq_error {a : Byte} {f : FaultReason} (h : regIndex a = .error f) :
    8 ≤ a.toNat ∧ f = .outOfBounds .reg a.toNat := by
  unfold regIndex at h
  split at h <;> cases h
  exact ⟨Nat.not_lt.mp ‹_›, rfl⟩

/-- Two good indices give the destination and both old values. -/
theorem aluOperands_of_lt {a b : Byte} (s : State) (ha : a.toNat < 8) (hb : b.toNat < 8) :
    aluOperands a b s = .ok (⟨a.toNat, ha⟩, s.reg ⟨a.toNat, ha⟩, s.reg ⟨b.toNat, hb⟩) := by
  simp [aluOperands, regIndex_of_lt ha, regIndex_of_lt hb]

/-- A bad destination index is reported whatever the source index is. -/
theorem aluOperands_of_ge_left {a : Byte} (b : Byte) (s : State) (ha : 8 ≤ a.toNat) :
    aluOperands a b s = .error (.outOfBounds .reg a.toNat) := by
  simp [aluOperands, regIndex_of_ge ha]

/-- A bad source index is reported where the destination index is good. -/
theorem aluOperands_of_ge_right {a b : Byte} (s : State) (ha : a.toNat < 8) (hb : 8 ≤ b.toNat) :
    aluOperands a b s = .error (.outOfBounds .reg b.toNat) := by
  simp [aluOperands, regIndex_of_lt ha, regIndex_of_ge hb]

/-- What the ALU's operands say where both went well. -/
theorem aluOperands_eq_ok {a b : Byte} {s : State} {r : Fin Config.nreg × Byte × Byte} (h : aluOperands a b s = .ok r) :
    ∃ (ha : a.toNat < 8) (hb : b.toNat < 8),
      r = (⟨a.toNat, ha⟩, s.reg ⟨a.toNat, ha⟩, s.reg ⟨b.toNat, hb⟩) := by
  by_cases ha : a.toNat < 8
  · by_cases hb : b.toNat < 8
    · rw [aluOperands_of_lt s ha hb] at h
      exact ⟨ha, hb, (Except.ok.inj h).symm⟩
    · rw [aluOperands_of_ge_right s ha (by omega)] at h
      cases h
  · rw [aluOperands_of_ge_left b s (by omega)] at h
    cases h

/-- What the ALU's operands say where one faulted. -/
theorem aluOperands_eq_error {a b : Byte} {s : State} {f : FaultReason} (h : aluOperands a b s = .error f) :
    (8 ≤ a.toNat ∧ f = .outOfBounds .reg a.toNat) ∨
      (a.toNat < 8 ∧ 8 ≤ b.toNat ∧ f = .outOfBounds .reg b.toNat) := by
  by_cases ha : a.toNat < 8
  · by_cases hb : b.toNat < 8
    · rw [aluOperands_of_lt s ha hb] at h
      cases h
    · rw [aluOperands_of_ge_right s ha (by omega)] at h
      exact .inr ⟨ha, by omega, (Except.error.inj h).symm⟩
  · rw [aluOperands_of_ge_left b s (by omega)] at h
    exact .inl ⟨by omega, (Except.error.inj h).symm⟩

/-! ## The stack -/

/-- The address a push writes, where the stack pointer is not 0. -/
theorem State.pushAddr_toNat {s : State} (h : 0 < s.sp.toNat) : s.pushAddr.toNat = s.sp.toNat - 1 := by
  have := s.sp.isLt
  simp only [State.pushAddr]
  bv_omega

/-- A push above `STACK_LIMIT` stores at the decremented stack pointer (R131, R133). -/
theorem State.pushByte_of_lt {s : State} (v : Byte) (h : s.stackLimit.toNat < s.sp.toNat) :
    s.pushByte v = .ok ((s.setSp s.pushAddr).setByte s.pushAddr.toNat v) := by
  unfold State.pushByte
  rw [if_neg (by omega)]
  exact State.memWrite_of_lt s.pushAddr.isLt

/-- A push at or below `STACK_LIMIT` overflows (R133). -/
theorem State.pushByte_of_le {s : State} (v : Byte) (h : s.sp.toNat ≤ s.stackLimit.toNat) :
    s.pushByte v = .error (.stackOverflow s.pc) := if_pos (by omega)

/-- The stack is not empty exactly where the stack pointer is below `SP_INIT`. -/
theorem State.sp_ge_iff (s : State) : s.sp ≥ Config.spInit ↔ 244 ≤ s.sp.toNat := by
  simp only [ge_iff_le, BitVec.le_def, Config.spInit]
  rfl

/-- A pop below `SP_INIT` reads the byte at the stack pointer and increments it (R132, R134). -/
theorem State.popByte_of_lt {s : State} (h : s.sp.toNat < 244) :
    s.popByte = .ok (s.mem.read s.sp.toNat, s.setSp (s.sp + 1)) := by
  unfold State.popByte
  rw [if_neg (by rw [State.sp_ge_iff]; omega), State.memRead_of_lt s.sp.isLt]
  rfl

/-- A pop of the empty stack underflows (R134). -/
theorem State.popByte_of_ge {s : State} (h : 244 ≤ s.sp.toNat) : s.popByte = .error (.stackUnderflow s.pc) :=
  if_pos (by rw [State.sp_ge_iff]; exact h)

/-- Everything a push can do. -/
theorem State.pushByte_cases (s : State) (v : Byte) :
    (s.stackLimit.toNat < s.sp.toNat ∧ s.pushByte v = .ok ((s.setSp s.pushAddr).setByte s.pushAddr.toNat v)) ∨
      (s.sp.toNat ≤ s.stackLimit.toNat ∧ s.pushByte v = .error (.stackOverflow s.pc)) := by
  by_cases h : s.stackLimit.toNat < s.sp.toNat
  · exact .inl ⟨h, State.pushByte_of_lt v h⟩
  · exact .inr ⟨by omega, State.pushByte_of_le v (by omega)⟩

/-- Everything a pop can do. -/
theorem State.popByte_cases (s : State) :
    (s.sp.toNat < 244 ∧ s.popByte = .ok (s.mem.read s.sp.toNat, s.setSp (s.sp + 1))) ∨
      (244 ≤ s.sp.toNat ∧ s.popByte = .error (.stackUnderflow s.pc)) := by
  by_cases h : s.sp.toNat < 244
  · exact .inl ⟨h, State.popByte_of_lt h⟩
  · exact .inr ⟨by omega, State.popByte_of_ge (by omega)⟩

/-! ## Fetch -/

/-- A fetch whose lookahead fits gives the three bytes at the program counter (R82). -/
theorem fetchBytes_of_le {s : State} (h : s.pc.toNat ≤ 253) : fetchBytes s = .ok (s.irByte, s.aByte, s.bByte) := by
  unfold fetchBytes
  rw [if_neg (by omega), State.memRead_of_lt (by omega), State.memRead_of_lt (by omega), State.memRead_of_lt (by omega)]
  rfl

/-- A fetch whose lookahead does not fit faults (R82). -/
theorem fetchBytes_of_ge {s : State} (h : 254 ≤ s.pc.toNat) : fetchBytes s = .error (.outOfBounds .mem 256) :=
  if_pos (by omega)

/-- Everything the fetch and the recognition can do. -/
theorem fetchInstr_cases (s : State) :
    (254 ≤ s.pc.toNat ∧ fetchInstr s = .error (.outOfBounds .mem 256)) ∨
    (s.pc.toNat ≤ 253 ∧ ∃ e, decode s.irByte s.aByte s.bByte = .error e ∧
      fetchInstr s = .error (rejectReason s.pc e)) ∨
    (s.pc.toNat ≤ 253 ∧ ∃ i, decode s.irByte s.aByte s.bByte = .ok i ∧ fetchInstr s = .ok i) := by
  by_cases h : s.pc.toNat ≤ 253
  · right
    unfold fetchInstr
    rw [fetchBytes_of_le h]
    cases hd : decode s.irByte s.aByte s.bByte with
    | ok i => exact .inr ⟨h, i, rfl, by simp [hd]⟩
    | error e => exact .inl ⟨h, e, rfl, by simp [hd]⟩
  · left
    refine ⟨by omega, ?_⟩
    unfold fetchInstr
    rw [fetchBytes_of_ge (by omega)]
    rfl

/-! ## Results -/

/-- The narrowing keeps the value modulo 256 (R7). -/
theorem trunc8_toNat (v : Int) : ((trunc8 v).toNat : Int) = v % 256 := by
  have h0 : 0 ≤ v % 256 := Int.emod_nonneg v (by decide)
  have h1 : v % 256 < 256 := Int.emod_lt_of_pos v (by decide)
  have h2 : (v % 256).toNat % 256 = (v % 256).toNat := Nat.mod_eq_of_lt (by omega)
  simp [trunc8, h2, Int.toNat_of_nonneg h0]

end Sys2Proof.Machine
end

