-- ==== Sys2Proof/Laws/Exec.lean ====
section
/-! SUPPORT. Everything an instruction and a step can do, said once: either the fault that is due is taken, or the
instruction's own effect happens. Later proofs cite these lemmas instead of unfolding the meanings. -/

namespace Sys2Proof.Machine

/-- An ALU instruction's effect: the destination takes `f` of both old values. -/
def AluEffect (f : Byte → Byte → Byte) (opc a b : Byte) (s t : State) : Prop :=
  ∃ (ha : a.toNat < 8) (hb : b.toNat < 8),
    t = (s.setReg ⟨a.toNat, ha⟩ (f (s.reg ⟨a.toNat, ha⟩) (s.reg ⟨b.toNat, hb⟩))).advance opc

/-- The effect of an instruction that completes, with the conditions under which it does. -/
def Effect (i : Instr) (s t : State) : Prop :=
  match i with
  | .ldi a b => ∃ ha : a.toNat < 8, t = (s.setReg ⟨a.toNat, ha⟩ b).advance opcLdi
  | .prn a => ∃ ha : a.toNat < 8, t = (s.emit (s.reg ⟨a.toNat, ha⟩)).advance opcPrn
  | .hlt => t = s.halt
  | .push a => ∃ ha : a.toNat < 8, s.stackLimit.toNat < s.sp.toNat ∧
      t = ((s.setSp s.pushAddr).setByte s.pushAddr.toNat (s.reg ⟨a.toNat, ha⟩)).advance opcPush
  | .pop a => ∃ ha : a.toNat < 8, s.sp.toNat < 244 ∧
      t = ((s.setSp (s.sp + 1)).setReg ⟨a.toNat, ha⟩ (s.mem.read s.sp.toNat)).advance opcPop
  | .call a => ∃ ha : a.toNat < 8, s.stackLimit.toNat < s.sp.toNat ∧
      t = ((s.setSp s.pushAddr).setByte s.pushAddr.toNat (returnAddr s.pc)).jump (s.reg ⟨a.toNat, ha⟩)
  | .ret => s.sp.toNat < 244 ∧ t = (s.setSp (s.sp + 1)).jump (s.mem.read s.sp.toNat)
  | .add a b => AluEffect aluAdd opcAdd a b s t
  | .sub a b => AluEffect aluSub opcSub a b s t
  | .mul a b => AluEffect aluMul opcMul a b s t
  | .div a b => AluEffect aluDiv opcDiv a b s t
  | .xor a b => AluEffect aluXor opcXor a b s t
  | .shl a b => AluEffect aluShl opcShl a b s t
  | .shr a b => AluEffect aluShr opcShr a b s t

/-- One register operand: its index faults first. -/
theorem instrFault_of_one {s : State} {i : Instr} {a : Byte} (hi : regOperands i = [a]) :
    s.instrFault i = if 8 ≤ a.toNat then some (.outOfBounds .reg a.toNat) else s.ownFault i := by
  by_cases ha : 8 ≤ a.toNat <;> simp [State.instrFault, hi, ha]

/-- Two register operands: the first index faults first, then the second. -/
theorem instrFault_of_two {s : State} {i : Instr} {a b : Byte} (hi : regOperands i = [a, b]) :
    s.instrFault i = if 8 ≤ a.toNat then some (.outOfBounds .reg a.toNat)
      else if 8 ≤ b.toNat then some (.outOfBounds .reg b.toNat) else s.ownFault i := by
  by_cases ha : 8 ≤ a.toNat <;> by_cases hb : 8 ≤ b.toNat <;> simp [State.instrFault, hi, ha, hb]

/-- What an instruction does, in its two cases. -/
def Does (i : Instr) (s : State) : Prop :=
  (∃ f, s.instrFault i = some f ∧ exec i s = .next (s.raise f)) ∨
    (s.instrFault i = none ∧ ∃ t, Effect i s t ∧ exec i s = .next t)

/-- An ALU instruction with no condition of its own. -/
theorem does_alu {i : Instr} {s : State} {a b opc : Byte} {f : Byte → Byte → Byte} (hi : regOperands i = [a, b])
    (hown : s.ownFault i = none) (heff : ∀ t, Effect i s t ↔ AluEffect f opc a b s t)
    (hexec : exec i s = commit s (aluOperands a b s >>= fun r => .ok ((s.setReg r.1 (f r.2.1 r.2.2)).advance opc))) :
    Does i s := by
  unfold Does
  rw [instrFault_of_two hi, hexec, hown]
  by_cases ha : 8 ≤ a.toNat
  · exact .inl ⟨_, by rw [if_pos ha], by rw [aluOperands_of_ge_left b s ha]; rfl⟩
  by_cases hb : 8 ≤ b.toNat
  · exact .inl ⟨_, by rw [if_neg ha, if_pos hb], by rw [aluOperands_of_ge_right s (Nat.not_le.mp ha) hb]; rfl⟩
  · have ha' : a.toNat < 8 := by omega
    have hb' : b.toNat < 8 := by omega
    exact .inr ⟨by rw [if_neg ha, if_neg hb], _, (heff _).mpr ⟨ha', hb', rfl⟩, by
      rw [aluOperands_of_lt s ha' hb']; rfl⟩

/-- An instruction with one register operand: the index fault, or what the rest does. -/
theorem does_one {i : Instr} {s : State} {a : Byte} {k : Fin Config.nreg → Except FaultReason State}
    (hi : regOperands i = [a]) (hexec : exec i s = commit s (regIndex a >>= k))
    (h : ∀ ha : a.toNat < 8, (∃ f, s.ownFault i = some f ∧ k ⟨a.toNat, ha⟩ = .error f) ∨
      (s.ownFault i = none ∧ ∃ t, Effect i s t ∧ k ⟨a.toNat, ha⟩ = .ok t)) : Does i s := by
  unfold Does
  rw [instrFault_of_one hi, hexec]
  by_cases ha : 8 ≤ a.toNat
  · exact .inl ⟨_, by rw [if_pos ha], by rw [regIndex_of_ge ha]; rfl⟩
  · have ha' : a.toNat < 8 := by omega
    rw [if_neg ha, regIndex_of_lt ha']
    rcases h ha' with ⟨f, h1, h2⟩ | ⟨h1, t, h2, h3⟩
    · exact .inl ⟨f, h1, by simp [h2]⟩
    · exact .inr ⟨h1, t, h2, by simp [h3]⟩

/-- DIV: the zero divisor is found after both indices. -/
theorem does_div (a b : Byte) (s : State) : Does (.div a b) s := by
  unfold Does
  rw [instrFault_of_two (show regOperands (.div a b) = [a, b] from rfl),
    show exec (.div a b) s = execDiv a b s from rfl, execDiv]
  by_cases ha : 8 ≤ a.toNat
  · exact .inl ⟨_, by rw [if_pos ha], by rw [aluOperands_of_ge_left b s ha]; rfl⟩
  by_cases hb : 8 ≤ b.toNat
  · exact .inl ⟨_, by rw [if_neg ha, if_pos hb], by rw [aluOperands_of_ge_right s (Nat.not_le.mp ha) hb]; rfl⟩
  · have ha' : a.toNat < 8 := by omega
    have hb' : b.toNat < 8 := by omega
    rw [if_neg ha, if_neg hb, aluOperands_of_lt s ha' hb']
    have hget : s.x[b.toNat]? = some (s.reg ⟨b.toNat, hb'⟩) := by simp [State.reg, hb']
    by_cases hz : s.reg ⟨b.toNat, hb'⟩ = 0#8
    · exact .inl ⟨.divisionByZero s.pc, by simp [State.ownFault, hget, hz], by simp [hz]⟩
    · exact .inr ⟨by simp [State.ownFault, hget, hz], _, ⟨ha', hb', rfl⟩, by simp [hz]⟩

/-- Every instruction takes the fault that is due, or has its effect. -/
theorem exec_does (i : Instr) (s : State) : Does i s := by
  cases i with
  | ldi a b => exact does_one (k := fun ra => .ok ((s.setReg ra b).advance opcLdi)) rfl rfl fun ha => .inr ⟨rfl, _, ⟨ha, rfl⟩, rfl⟩
  | prn a => exact does_one (k := fun ra => .ok ((s.emit (s.reg ra)).advance opcPrn)) rfl rfl fun ha => .inr ⟨rfl, _, ⟨ha, rfl⟩, rfl⟩
  | hlt => exact .inr ⟨rfl, _, rfl, rfl⟩
  | push a =>
    refine does_one (k := fun ra => s.pushByte (s.reg ra) >>= fun t => .ok (t.advance opcPush)) rfl rfl fun ha => ?_
    rcases s.pushByte_cases (s.reg ⟨a.toNat, ha⟩) with ⟨hlt, hp⟩ | ⟨hle, hp⟩
    · exact .inr ⟨by simp [State.ownFault]; omega, _, ⟨ha, hlt, rfl⟩, by simp [hp]⟩
    · exact .inl ⟨.stackOverflow s.pc, by simp [State.ownFault]; omega, by simp [hp]⟩
  | pop a =>
    refine does_one (k := fun ra => s.popByte >>= fun r => .ok ((r.2.setReg ra r.1).advance opcPop)) rfl rfl fun ha => ?_
    rcases s.popByte_cases with ⟨hlt, hp⟩ | ⟨hle, hp⟩
    · exact .inr ⟨by simp [State.ownFault]; omega, _, ⟨ha, hlt, rfl⟩, by simp [hp]⟩
    · exact .inl ⟨.stackUnderflow s.pc, by simp [State.ownFault]; omega, by simp [hp]⟩
  | call a =>
    refine does_one (k := fun ra => s.pushByte (returnAddr s.pc) >>= fun t => .ok (t.jump (s.reg ra))) rfl rfl fun ha => ?_
    rcases s.pushByte_cases (returnAddr s.pc) with ⟨hlt, hp⟩ | ⟨hle, hp⟩
    · exact .inr ⟨by simp [State.ownFault]; omega, _, ⟨ha, hlt, rfl⟩, by simp [hp]⟩
    · exact .inl ⟨.stackOverflow s.pc, by simp [State.ownFault]; omega, by simp [hp]⟩
  | ret =>
    rcases s.popByte_cases with ⟨hlt, hp⟩ | ⟨hle, hp⟩
    · exact .inr ⟨by simp [State.instrFault, regOperands, State.ownFault]; omega, _, ⟨hlt, rfl⟩,
        by simp [exec, execRet, hp]⟩
    · exact .inl ⟨.stackUnderflow s.pc, by simp [State.instrFault, regOperands, State.ownFault]; omega,
        by simp [exec, execRet, hp]⟩
  | add a b => exact does_alu (f := aluAdd) (opc := opcAdd) rfl rfl (fun _ => Iff.rfl) rfl
  | sub a b => exact does_alu (f := aluSub) (opc := opcSub) rfl rfl (fun _ => Iff.rfl) rfl
  | mul a b => exact does_alu (f := aluMul) (opc := opcMul) rfl rfl (fun _ => Iff.rfl) rfl
  | div a b => exact does_div a b s
  | xor a b => exact does_alu (f := aluXor) (opc := opcXor) rfl rfl (fun _ => Iff.rfl) rfl
  | shl a b => exact does_alu (f := aluShl) (opc := opcShl) rfl rfl (fun _ => Iff.rfl) rfl
  | shr a b => exact does_alu (f := aluShr) (opc := opcShr) rfl rfl (fun _ => Iff.rfl) rfl

/-- The inversion of `exec`: the next state is the start with the due fault taken, or that of the instruction's effect. -/
theorem exec_eq_next {i : Instr} {s t : State} (h : exec i s = .next t) :
    (∃ f, s.instrFault i = some f ∧ t = s.raise f) ∨ (s.instrFault i = none ∧ Effect i s t) := by
  rcases exec_does i s with ⟨f, hf, he⟩ | ⟨hn, u, hu, he⟩ <;> rw [h] at he <;> cases he
  · exact .inl ⟨f, hf, rfl⟩
  · exact .inr ⟨hn, hu⟩

/-- The inversion of `step`: the machine was running, and either the due fault was taken, or the fetched instruction had its
effect with no fault due. -/
theorem step_eq_next {s t : State} (h : step s = .next t) :
    s.status = .running ∧
      ((∃ f, s.dueFault = some f ∧ t = s.raise f) ∨
        (s.dueFault = none ∧ s.pc.toNat ≤ 253 ∧
          ∃ i, decode s.irByte s.aByte s.bByte = .ok i ∧ Effect i s t)) := by
  unfold step at h
  split at h
  case h_2 | h_3 => cases h
  refine ⟨‹_›, ?_⟩
  rcases fetchInstr_cases s with ⟨hpc, hf⟩ | ⟨hpc, e, hd, hf⟩ | ⟨hpc, i, hd, hf⟩ <;> rw [hf] at h
  · cases h
    exact .inl ⟨_, by rw [State.dueFault, if_pos hpc], rfl⟩
  · cases h
    refine .inl ⟨_, ?_, rfl⟩
    rw [State.dueFault, if_neg (by omega), hd]
    cases e <;> rfl
  · have hdue : s.dueFault = s.instrFault i := by
      rw [State.dueFault, if_neg (by omega), hd]
    rw [hdue]
    rcases exec_eq_next h with h | ⟨h1, h2⟩
    · exact .inl h
    · exact .inr ⟨h1, hpc, i, hd, h2⟩

/-- A run of one step more is a step and a run. -/
theorem run_succ_eq_next {k : Nat} {s t : State} (h : Sys2Proof.core.run (k + 1) s = Host.Outcome.next t) :
    ∃ u, step s = .next u ∧ Sys2Proof.core.run k u = Host.Outcome.next t := by
  have hrun := (Host.Core.run.eq_def Sys2Proof.core (k + 1) s).symm.trans h
  have hcore : Sys2Proof.core.step s = step s := rfl
  cases hs : step s with
  | next u => exact ⟨u, rfl, by simpa only [hcore.trans hs] using hrun⟩
  | fault r => simp only [hcore.trans hs] at hrun; cases hrun
  | refused r => simp only [hcore.trans hs] at hrun; cases hrun

end Sys2Proof.Machine
end

