-- ==== Sys2Proof/Laws/PerInstr.lean ====
section
/-! SUPPORT. Families of statements made instruction by instruction. -/

namespace Sys2Proof.Laws.RoundTrip

/-- Three fetched bytes that begin with the encoding of an instruction decode to it, with every operand byte at every value
and whatever lookahead bytes follow (R63, R68, R71). -/
def Statement (i : Instr) : Prop := ∀ ir a b : Byte, encode i <+: [ir, a, b] → decode ir a b = .ok i

theorem ldi (a b : Byte) : Statement (.ldi a b) := by
  rintro ir x y ⟨rest, h⟩; cases h; exact decode_ldi _ _

theorem prn (a : Byte) : Statement (.prn a) := by
  rintro ir x y ⟨rest, h⟩; cases h; exact decode_prn _ _

theorem hlt : Statement .hlt := by
  rintro ir x y ⟨rest, h⟩; cases h; exact decode_hlt _ _

theorem push (a : Byte) : Statement (.push a) := by
  rintro ir x y ⟨rest, h⟩; cases h; exact decode_push _ _

theorem pop (a : Byte) : Statement (.pop a) := by
  rintro ir x y ⟨rest, h⟩; cases h; exact decode_pop _ _

theorem call (a : Byte) : Statement (.call a) := by
  rintro ir x y ⟨rest, h⟩; cases h; exact decode_call _ _

theorem ret : Statement .ret := by
  rintro ir x y ⟨rest, h⟩; cases h; exact decode_ret _ _

theorem add (a b : Byte) : Statement (.add a b) := by
  rintro ir x y ⟨rest, h⟩; cases h; exact decode_add _ _

theorem sub (a b : Byte) : Statement (.sub a b) := by
  rintro ir x y ⟨rest, h⟩; cases h; exact decode_sub _ _

theorem mul (a b : Byte) : Statement (.mul a b) := by
  rintro ir x y ⟨rest, h⟩; cases h; exact decode_mul _ _

theorem div (a b : Byte) : Statement (.div a b) := by
  rintro ir x y ⟨rest, h⟩; cases h; exact decode_div _ _

theorem xor (a b : Byte) : Statement (.xor a b) := by
  rintro ir x y ⟨rest, h⟩; cases h; exact decode_xor _ _

theorem shl (a b : Byte) : Statement (.shl a b) := by
  rintro ir x y ⟨rest, h⟩; cases h; exact decode_shl _ _

theorem shr (a b : Byte) : Statement (.shr a b) := by
  rintro ir x y ⟨rest, h⟩; cases h; exact decode_shr _ _

end Sys2Proof.Laws.RoundTrip
end

