-- ==== Sys2Proof/Tests/Slice0.lean ====
section
/-! SUPPORT. The model's own tests. Expected values are the spec's: the opcode tables of 30_encoding.md and the examples and
vectors of 95_test_vectors.md (named in each docstring). The witnesses show that the hypotheses of each statement can be met. -/

namespace Sys2Proof.Tests

open Sys2Proof Sys2Proof.Machine

/-! ## Helpers -/

/-- The next state, where there is one. -/
def after : Host.Outcome State Fault Refusal → Option State
  | .next t => some t
  | .fault _ => none
  | .refused _ => none

/-- A next state that meets a decidable property. -/
theorem exists_next {o : Host.Outcome State Fault Refusal} {P : State → Prop} [DecidablePred P]
    (h : (after o).any (fun t => decide (P t)) = true) : ∃ t, o = .next t ∧ P t := by
  cases o with
  | next t => exact ⟨t, rfl, by simpa [after] using h⟩
  | fault f => cases h
  | refused r => cases h

/-- Reset with these bytes from address 0. -/
def boot (image : List Byte) : State := { State.reset with mem := Memory.load [] 0 image }

/-- Reset with `x[0]` and `x[1]` set. -/
def two (va vb : Byte) : State := { State.reset with x := #v[va, vb, 0, 0, 0, 0, 0, 0] }

/-- `x[0]` and the program counter after an instruction. -/
def x0pc (i : Instr) (s : State) : Option (Byte × Nat) := (after (exec i s)).map fun t => (t.reg 0, t.pc.toNat)

/-- The status after one step. -/
def statusAfter (s : State) : Option Status := (after (step s)).map (·.status)

/-! ## Decoding: words written out from the tables of R66 and R67 -/

theorem test_decode_ldi : (decode 0b10000010 0 8).toOption = some (.ldi 0 8) := by decide
theorem test_decode_prn : (decode 0b01000111 0 1).toOption = some (.prn 0) := by decide
theorem test_decode_hlt : (decode 0b00000001 0 0).toOption = some (.hlt) := by decide
theorem test_decode_push : (decode 0b01000101 2 9).toOption = some (.push 2) := by decide
theorem test_decode_pop : (decode 0b01000110 2 9).toOption = some (.pop 2) := by decide
theorem test_decode_call : (decode 0b01010000 1 9).toOption = some (.call 1) := by decide
theorem test_decode_ret : (decode 0b00010001 9 9).toOption = some (.ret) := by decide
theorem test_decode_add : (decode 0b10100000 0 1).toOption = some (.add 0 1) := by decide
theorem test_decode_sub : (decode 0b10100001 2 3).toOption = some (.sub 2 3) := by decide
theorem test_decode_mul : (decode 0b10100010 0 1).toOption = some (.mul 0 1) := by decide
theorem test_decode_div : (decode 0b10100011 0 1).toOption = some (.div 0 1) := by decide
theorem test_decode_xor : (decode 0b10101011 0 1).toOption = some (.xor 0 1) := by decide
theorem test_decode_shl : (decode 0b10101100 0 1).toOption = some (.shl 0 1) := by decide
theorem test_decode_shr : (decode 0b10101101 0 1).toOption = some (.shr 0 1) := by decide

/-- How many bytes with `n` in bits 7:6 decode to an instruction, and how many are rejected under each name. -/
def opcodeMapCounts (n : Nat) : Nat × Nat × Nat :=
  (List.range 64).foldl (fun c v => match decode (BitVec.ofNat 8 (64 * n + v)) 0 0 with
    | .ok _ => (c.1 + 1, c.2.1, c.2.2)
    | .error (.unsupportedOperation _) => (c.1, c.2.1 + 1, c.2.2)
    | .error (.unknownOpcode _) => (c.1, c.2.1, c.2.2 + 1)) (0, 0, 0)

/-- R68: 14 defined bytes, 121 that fault UnsupportedOperation, 121 that fault UnknownOpcode, by operand count. -/
theorem test_opcode_map_0 : opcodeMapCounts 0 = (2, 32, 30) := by decide
theorem test_opcode_map_1 : opcodeMapCounts 1 = (4, 32, 28) := by decide
theorem test_opcode_map_2 : opcodeMapCounts 2 = (8, 25, 31) := by decide
theorem test_opcode_map_3 : opcodeMapCounts 3 = (0, 32, 32) := by decide

/-- The table's numbering: LDI R0, 8 is the word whose bits 7:0 are the opcode byte. -/
theorem test_table_word_ldi : decodeTableWord 24 0x080082 = some (.ldi 0 8) := by decide

/-- A table word of one byte is read with zero operand bytes. -/
theorem test_table_word_short : decodeTableWord 8 0x45 = some (.push 0) := by decide

/-! ## WellFormed: every check refuses an ill-formed term -/

theorem test_illformed_ldi : (Instr.ldi 8 0).wellFormed = false := by decide
theorem test_illformed_prn : (Instr.prn 8).wellFormed = false := by decide
theorem test_illformed_push : (Instr.push 8).wellFormed = false := by decide
theorem test_illformed_pop : (Instr.pop 8).wellFormed = false := by decide
theorem test_illformed_call : (Instr.call 8).wellFormed = false := by decide
theorem test_illformed_add : (Instr.add 8 0).wellFormed = false ∧ (Instr.add 0 255).wellFormed = false := by decide
theorem test_illformed_sub : (Instr.sub 8 0).wellFormed = false ∧ (Instr.sub 0 255).wellFormed = false := by decide
theorem test_illformed_mul : (Instr.mul 8 0).wellFormed = false ∧ (Instr.mul 0 255).wellFormed = false := by decide
theorem test_illformed_div : (Instr.div 8 0).wellFormed = false ∧ (Instr.div 0 255).wellFormed = false := by decide
theorem test_illformed_xor : (Instr.xor 8 0).wellFormed = false ∧ (Instr.xor 0 255).wellFormed = false := by decide
theorem test_illformed_shl : (Instr.shl 8 0).wellFormed = false ∧ (Instr.shl 0 255).wellFormed = false := by decide
theorem test_illformed_shr : (Instr.shr 8 0).wellFormed = false ∧ (Instr.shr 0 255).wellFormed = false := by decide

/-- LDI's second operand is an immediate, not a register (R65). -/
theorem test_wellformed_ldi : (Instr.ldi 7 255).wellFormed = true := by decide

/-! ## One instruction each, from the ALU vectors and the instruction rules' examples -/

theorem test_add : x0pc (.add 0 1) (two 200 100) = some (44, 3) := by decide
theorem test_sub : x0pc (.sub 0 1) (two 3 5) = some (254, 3) := by decide
theorem test_mul : x0pc (.mul 0 1) (two 255 255) = some (1, 3) := by decide
theorem test_div : x0pc (.div 0 1) (two 100 7) = some (14, 3) := by decide
theorem test_xor : x0pc (.xor 0 1) (two 0xF0 0x3C) = some (0xCC, 3) := by decide
theorem test_shl : x0pc (.shl 0 1) (two 0x81 1) = some (2, 3) := by decide
theorem test_shr : x0pc (.shr 0 1) (two 0x80 1) = some (0x40, 3) := by decide
theorem test_add_self : x0pc (.add 0 0) (two 0x80 5) = some (0, 3) := by decide
theorem test_sub_self : x0pc (.sub 0 0) (two 0x9C 5) = some (0, 3) := by decide
theorem test_mul_self : x0pc (.mul 0 0) (two 12 5) = some (144, 3) := by decide
theorem test_div_self : x0pc (.div 0 0) (two 9 5) = some (1, 3) := by decide
theorem test_xor_self : x0pc (.xor 0 0) (two 0xD7 5) = some (0, 3) := by decide
theorem test_shl_self : x0pc (.shl 0 0) (two 8 5) = some (0, 3) := by decide
theorem test_shr_self : x0pc (.shr 0 0) (two 200 5) = some (0, 3) := by decide

theorem test_shl_255 : aluShl 0xFF 255 = 0 := by decide
theorem test_shr_255 : aluShr 0xFF 255 = 0 := by decide

/-- R120's example. -/
theorem test_ldi : x0pc (.ldi 0 8) State.reset = some (8, 3) := by decide

/-- S3: LDI R7 leaves the stack pointer. -/
theorem test_ldi_r7 : (after (exec (.ldi 7 255) State.reset)).map (fun t => (t.reg 7, t.sp)) = some (255, 0xF4) := by decide

/-- R121's example. -/
theorem test_prn : (after (exec (.prn 0) (two 8 0))).map (fun t => (t.out, t.pc.toNat)) = some ([8], 2) := by decide

/-- R122: the status changes and the program counter does not. -/
theorem test_hlt : (after (exec .hlt State.reset)).map (fun t => (t.status, t.pc.toNat)) = some (.halted, 0) := by decide

/-- R131's example. -/
theorem test_push : (after (exec (.push 1) (two 0 0x2A))).map (fun t => (t.sp, t.mem, t.pc.toNat)) =
    some (0xF3, [(0xF3, 0x2A)], 2) := by decide

/-- R132's example. -/
theorem test_pop : (after (exec (.pop 0) { State.reset with sp := 0xF3, mem := [(0xF3, 0x2A)] })).map
    (fun t => (t.reg 0, t.sp, t.pc.toNat)) = some (0x2A, 0xF4, 2) := by decide

/-- R141's example. -/
theorem test_call : (after (exec (.call 1) { two 0 11 with pc := 6 })).map (fun t => (t.mem.read 0xF3, t.sp, t.pc.toNat)) =
    some (8, 0xF3, 11) := by decide

/-- R142's example. -/
theorem test_ret : (after (exec .ret { State.reset with pc := 14, sp := 0xF3, mem := [(0xF3, 8)] })).map
    (fun t => (t.pc.toNat, t.sp)) = some (8, 0xF4) := by decide

/-! ## Faults: vectors X, E, K and F -/

/-- X2: no masking of the index. -/
theorem test_X2 : statusAfter (boot [0x47, 0xFF, 1]) = some (.faulted (.outOfBounds .reg 255)) := by decide
/-- X4: both indices bad, the destination reported. -/
theorem test_X4 : statusAfter (boot [0xA0, 9, 8, 1]) = some (.faulted (.outOfBounds .reg 9)) := by decide
/-- X5: the index fault wins over the zero divisor. -/
theorem test_X5 : statusAfter (boot [0xA3, 8, 0, 1]) = some (.faulted (.outOfBounds .reg 8)) := by decide
/-- X7: the index fault wins over the overflow. -/
theorem test_X7 : statusAfter { boot [0x45, 8] with stackLimit := 0xF4 } = some (.faulted (.outOfBounds .reg 8)) := by decide
/-- X8: the overflow with a good index. -/
theorem test_X8 : statusAfter { boot [0x45, 0] with stackLimit := 0xF4 } = some (.faulted (.stackOverflow 0)) := by decide
/-- E1: operand count 3, bit 5 clear. -/
theorem test_E1 : statusAfter (boot [0xC1]) = some (.faulted (.unknownOpcode 0xC1 0)) := by decide
/-- E2: an undefined ALU selector, its operands not examined. -/
theorem test_E2 : statusAfter (boot [0xA4, 9, 9]) = some (.faulted (.unsupportedOperation 0xA4 0)) := by decide
/-- E5: the zero byte is not a no-operation. -/
theorem test_E5 : statusAfter State.reset = some (.faulted (.unknownOpcode 0 0)) := by decide
/-- E6 (S2a): bit 5 of 0xFF is set. -/
theorem test_E6 : statusAfter (boot [0xFF]) = some (.faulted (.unsupportedOperation 0xFF 0)) := by decide
/-- K1, K2: pops of the empty stack. -/
theorem test_K1 : statusAfter (boot [0x46, 0, 1]) = some (.faulted (.stackUnderflow 0)) := by decide
theorem test_K2 : statusAfter (boot [0x11]) = some (.faulted (.stackUnderflow 0)) := by decide
/-- P4, second step: a zero divisor. -/
theorem test_P4 : (after (step { boot [0, 0, 0, 0xA3, 0, 1] with pc := 3 })).map (fun t => (t.status, t.pc.toNat)) =
    some (.faulted (.divisionByZero 3), 3) := by decide
/-- F1: HLT at 253 executes. -/
theorem test_F1 : statusAfter { State.reset with pc := 253, mem := [(253, 1)] } = some .halted := by decide
/-- F2: HLT at 254 is never executed. -/
theorem test_F2 : statusAfter { State.reset with pc := 254, mem := [(254, 1)] } = some (.faulted (.outOfBounds .mem 256)) := by
  decide
/-- F4: a three-byte instruction at 253 leaves the program counter at 256. -/
theorem test_F4 : (after (step { State.reset with pc := 253, mem := [(253, 0x82), (254, 1), (255, 0x2A)] })).map
    (fun t => (t.reg 1, t.pc.toNat)) = some (0x2A, 256) := by decide
/-- R150: the numbering of the kinds. -/
theorem test_codes : (FaultReason.outOfBounds .mem 256).code = 1 ∧ (FaultReason.stackUnderflow 0).code = 7 := by decide

/-! ## Witnesses: the hypotheses of every statement that has some can be met -/

/-- A state whose next instruction is PUSH R1 at the edge of its stack, for several witnesses. -/
def pusher : State := { boot [0x45, 1, 0x46, 1] with x := #v[0, 0x2A, 0, 0, 0, 0, 0, 0], stackLimit := 0xF3 }

theorem witness_StepRunsDecodedInstruction : ∃ s : State, s.CanFetch ∧ s.pc.toNat = 253 ∧
    (decode (s.mem.read s.pc.toNat) (s.mem.read (s.pc.toNat + 1)) (s.mem.read (s.pc.toNat + 2))).toOption = some .hlt :=
  ⟨{ State.reset with pc := 253, mem := [(253, 1)] }, by decide⟩

theorem witness_FetchPastTopFaults : ∀ pc ∈ [(254 : PcWord), 255, 256],
    ({ State.reset with pc := pc } : State).status = .running ∧ 254 ≤ ({ State.reset with pc := pc } : State).pc.toNat := by
  decide

theorem witness_UndefinedByteFaults :
    ((boot [0xBF]).CanFetch ∧ (boot [0xBF]).irByte.toNat / 32 % 2 = 1 ∧
      (boot [0xBF]).irByte.toNat ∉ [0xA0, 0xA1, 0xA2, 0xA3, 0xAB, 0xAC, 0xAD]) ∧
    ((boot [0xC0]).CanFetch ∧ (boot [0xC0]).irByte.toNat / 32 % 2 = 0 ∧
      (boot [0xC0]).irByte.toNat ∉ [0x01, 0x11, 0x45, 0x46, 0x47, 0x50, 0x82]) := by decide

theorem witness_UnusedLookaheadIgnored : operandCount opcPrn ≤ 1 ∧ operandCount opcHlt = 0 := by decide

theorem witness_StepExactlyWhileRunning : State.reset.status = .running ∧ State.reset.halt.status = .halted ∧
    (State.reset.raise (.stackUnderflow 0)).status = .faulted (.stackUnderflow 0) := by decide

theorem witness_FaultChangesOnlyStatus : ∃ t, step State.reset = .next t ∧ t.status = .faulted (.unknownOpcode 0 0) :=
  exists_next (by decide)

theorem witness_HaltedOnlyByHlt : ∃ t, step (boot [1]) = .next t ∧ t.status = .halted := exists_next (by decide)

theorem witness_FaultExactlyWhenDue : ∃ t, step (boot [0xA3, 7, 7]) = .next t ∧ t.status = .faulted (.divisionByZero 0) :=
  exists_next (by decide)

theorem witness_StepKeepsInvariant : pusher.Inv ∧ ∃ t, step pusher = .next t ∧ t.sp = 0xF3 :=
  ⟨by decide, exists_next (by decide)⟩

theorem witness_ResetMeetsInvariant : (244 : Byte).toNat ≤ 244 := by decide

theorem witness_LaunchPlacesImage :
    ((List.replicate 256 (1 : Byte)).length ≤ 256 ∧ (244 : Byte).toNat ≤ 244) ∧
    256 < (List.replicate 257 (1 : Byte)).length ∧ 244 < (245 : Byte).toNat := by
  simp only [List.length_replicate]; decide

theorem witness_RunChangesOnlyStackRegion : pusher.Inv ∧
    (∃ t, Sys2Proof.core.run 1 pusher = Host.Outcome.next t) ∧ ¬ pusher.InStackRegion 0xF4 ∧ ¬ pusher.InStackRegion 0xF2 := by
  refine ⟨by decide, ?_, by decide, by decide⟩
  obtain ⟨t, ht, -⟩ : ∃ t, step pusher = .next t ∧ t.sp = 0xF3 := exists_next (by decide)
  have hrun := Host.Core.run.eq_def Sys2Proof.core 1 pusher
  have hcore : Sys2Proof.core.step pusher = .next t := ht
  simp only [hcore] at hrun
  exact ⟨t, hrun⟩

theorem witness_StackPointerChangesOnlyByStackOps : (∃ t, step pusher = .next t ∧ t.sp ≠ pusher.sp) ∧
    ∃ t, step { boot [0x11] with sp := 0xF3 } = .next t ∧ t.sp ≠ 0xF3 :=
  ⟨exists_next (by decide), exists_next (by decide)⟩

theorem witness_OutputChangesOnlyByPrn : ∃ t, step (boot [0x47, 7]) = .next t ∧ t.out ≠ (boot [0x47, 7]).out :=
  exists_next (by decide)

theorem witness_RegistersChangeOnlyByNamingThem : ∃ t, step (boot [0x82, 7, 1]) = .next t ∧
    t.reg 7 ≠ (boot [0x82, 7, 1]).reg 7 := exists_next (by decide)

theorem witness_MemoryChangesOnlyByPushes : pusher.mem.wf ∧ ∃ t, step pusher = .next t ∧
    t.mem.read 0xF3 ≠ pusher.mem.read 0xF3 := ⟨by decide, exists_next (by decide)⟩

theorem witness_OutputNeverRead : (∃ t, step (boot [0x47, 7]) = .next t ∧ t.out = [0]) ∧
    step State.reset.halt = .fault .noStepInHalted := ⟨exists_next (by decide), rfl⟩

theorem witness_StoredWordRunsNext : State.reset.mem.wf ∧ decodeTableWord 24 0xFF0782 = some (.ldi 7 255) := by decide

/-- The operand clauses of the ALU, LDI and PRN statements at the ends of their ranges. -/
theorem witness_operands : (7 : Byte).toNat < 8 ∧ 8 ≤ (8 : Byte).toNat ∧ 8 ≤ (255 : Byte).toNat := by decide

theorem witness_DivWritesTruncatedQuotient :
    (two 0 1).reg ⟨(1 : Byte).toNat, by decide⟩ ≠ 0 ∧ (two 0 0).reg ⟨(1 : Byte).toNat, by decide⟩ = 0 := by decide

theorem witness_HltHalts :
    (({ State.reset with pc := 253, mem := [(253, 1)] } : State).status = .running ∧
      ({ State.reset with pc := 253, mem := [(253, 1)] } : State).irByte = opcHlt) ∧
    ({ State.reset with pc := 254, mem := [(254, 1)] } : State).irByte = opcHlt := by decide

theorem witness_PushStoresBelowTop : pusher.mem.wf ∧ (1 : Byte).toNat < 8 ∧
    pusher.stackLimit.toNat < pusher.sp.toNat ∧
    ({ pusher with sp := 0xF3 } : State).sp.toNat ≤ ({ pusher with sp := 0xF3 } : State).stackLimit.toNat := by decide

theorem witness_PopLoadsTop : ({ pusher with sp := 0xF3 } : State).sp.toNat < 244 ∧ 244 ≤ pusher.sp.toNat := by decide

theorem witness_CallPushesReturnAndJumps : pusher.mem.wf ∧ ({ pusher with pc := 253 } : State).pc.toNat ≤ 253 ∧
    pusher.stackLimit.toNat < pusher.sp.toNat ∧
    ({ pusher with sp := 0 } : State).sp.toNat ≤ pusher.stackLimit.toNat := by decide

theorem witness_RetPopsProgramCounter : ({ pusher with sp := 0xF3 } : State).sp.toNat < 244 ∧ 244 ≤ pusher.sp.toNat ∧
    ({ State.reset with pc := 254, mem := [(254, 0x11)] } : State).status = .running ∧
    ({ State.reset with pc := 254, mem := [(254, 0x11)] } : State).irByte = 0x11 := by decide

theorem witness_RegisterWritersFrame : ∃ t, exec (.shr 7 0) State.reset = .next t ∧ t.pc = 3 := exists_next (by decide)

theorem witness_PushCallFrame : pusher.mem.wf ∧ ∃ t, exec (.call 1) pusher = .next t ∧ t.pc = 0x2A :=
  ⟨by decide, exists_next (by decide)⟩

theorem witness_PopRetFrame : ∃ t, exec (.pop 7) { pusher with sp := 0xF3 } = .next t ∧ t.sp = 0xF4 :=
  exists_next (by decide)

theorem witness_PrnHltFrame : (∃ t, exec (.prn 7) State.reset = .next t ∧ t.out = [0]) ∧
    ∃ t, exec .hlt State.reset = .next t ∧ t.status = .halted := ⟨exists_next (by decide), exists_next (by decide)⟩

theorem witness_GenericAdvanceIsExact : pusher.CanFetch ∧
    (decode pusher.irByte pusher.aByte pusher.bByte).toOption = some (.push 1) ∧
    ∃ t, step pusher = .next t ∧ t.status = .running := ⟨by decide, by decide, exists_next (by decide)⟩

theorem witness_PushThenPopRoundTrip : pusher.Inv ∧ pusher.status = .running ∧ pusher.pc.toNat ≤ 251 ∧
    pusher.mem.read pusher.pc.toNat = opcPush ∧ pusher.mem.read (pusher.pc.toNat + 1) = 1 ∧
    pusher.mem.read (pusher.pc.toNat + 2) = opcPop ∧ pusher.mem.read (pusher.pc.toNat + 3) = 1 ∧
    pusher.stackLimit.toNat < pusher.sp.toNat ∧ pusher.sp.toNat ≠ pusher.pc.toNat + 3 ∧
    pusher.sp.toNat ≠ pusher.pc.toNat + 4 := by decide

/-- CALL R1 at 0 to a RET at 0x2A. -/
def caller : State := { pusher with mem := [(0, 0x50), (1, 1), (0x2A, 0x11)] }

theorem witness_CallThenReturnResumes : caller.Inv ∧ caller.CanFetch ∧ caller.irByte = opcCall ∧
    ∃ t, step caller = .next t ∧ (t.status = .running ∧ t.CanFetch ∧ t.irByte = opcRet) :=
  ⟨by decide, by decide, by decide, exists_next (by decide)⟩

theorem witness_LoadThenPrintEmitsImmediate : ∃ s : State, s.status = .running ∧ s.pc.toNat ≤ 250 ∧
    s.mem.read s.pc.toNat = opcLdi ∧ s.mem.read (s.pc.toNat + 1) = 7 ∧ s.mem.read (s.pc.toNat + 2) = 255 ∧
    s.mem.read (s.pc.toNat + 3) = opcPrn ∧ s.mem.read (s.pc.toNat + 4) = 7 :=
  ⟨{ State.reset with pc := 250, mem := Memory.load [] 250 [0x82, 7, 0xFF, 0x47, 7] }, by decide⟩

theorem witness_DivideThenMultiplyBounds : (0 : Byte).toNat < 8 ∧ (1 : Byte).toNat < 8 ∧ (0 : Byte) ≠ 1 ∧
    (two 7 2).reg ⟨(1 : Byte).toNat, by decide⟩ ≠ 0 := by decide

theorem witness_SelfOperandResults : (0 : Byte).toNat < 8 ∧ (two 9 0).reg ⟨(0 : Byte).toNat, by decide⟩ ≠ 0 := by decide

theorem witness_LargeShiftsClear : (1 : Byte).toNat < 8 ∧ 8 ≤ ((two 1 8).reg ⟨(1 : Byte).toNat, by decide⟩).toNat := by decide

/-- PUSH R1 at 0xF1, whose byte, the opcode of HLT, lands on the next opcode byte 0xF3. -/
def selfWriter : State := { two 0 1 with pc := 0xF1, mem := [(0xF1, 0x45), (0xF2, 1)] }

theorem witness_PushedOpcodeRunsNext : selfWriter.Inv ∧ selfWriter.status = .running ∧ selfWriter.pc.toNat ≤ 251 ∧
    selfWriter.mem.read selfWriter.pc.toNat = opcPush ∧ selfWriter.mem.read (selfWriter.pc.toNat + 1) = 1 ∧
    selfWriter.stackLimit.toNat < selfWriter.sp.toNat ∧ selfWriter.sp.toNat = selfWriter.pc.toNat + 3 ∧
    (decode (selfWriter.reg 1) (selfWriter.mem.read (selfWriter.pc.toNat + 3))
      (selfWriter.mem.read (selfWriter.pc.toNat + 4))).toOption = some .hlt := by decide

end Sys2Proof.Tests
end

/-! # The state family (10_state.md): who changes what, and the invariant -/

namespace Sys2Proof.Machine

/-! ## Decoding and completing, seen from the fetched bytes -/

/-- The operand bytes of a decoded instruction are the first of the two bytes after the opcode byte. -/
theorem operands_prefix_of_decode {ir a b : Byte} {i : Instr} (h : decode ir a b = .ok i) :
    i.operands <+: [a, b] := by
  unfold decode decodeAlu decodeTable at h
  repeat' split at h
  all_goals cases h <;> exact ⟨_, rfl⟩

/-- The opcode bytes of LDI and the seven ALU instructions: they write the register operand `a` names and advance. -/
def registerWriters : List Byte := [opcLdi, opcAdd, opcSub, opcMul, opcDiv, opcXor, opcShl, opcShr]

theorem operandCount_of_mem_registerWriters {opc : Byte} (h : opc ∈ registerWriters) : operandCount opc = 2 := by
  revert opc
  decide

/-- LDI and the ALU instructions, completing, have written the register named by `a` and advanced. -/
theorem effect_writeReg {i : Instr} {a b : Byte} {s t : State}
    (hi : i ∈ [Instr.ldi a b, .add a b, .sub a b, .mul a b, .div a b, .xor a b, .shl a b, .shr a b])
    (h : Effect i s t) :
    ∃ (r : Fin 8) (v : Byte), (r : Nat) = a.toNat ∧ t = (s.setReg r v).advance i.opcode := by
  simp only [List.mem_cons, List.not_mem_nil, or_false] at hi
  rcases hi with rfl | rfl | rfl | rfl | rfl | rfl | rfl | rfl
  case inl => obtain ⟨ha, rfl⟩ := h; exact ⟨⟨a.toNat, ha⟩, _, rfl, rfl⟩
  all_goals obtain ⟨ha, hb, rfl⟩ := h; exact ⟨⟨a.toNat, ha⟩, _, rfl, rfl⟩

/-- The seven ways in which an instruction that completes takes `s` to `t`, told by its opcode byte and its operand `a`. -/
inductive Change (s t : State) (opc a : Byte) : Prop
  | writeReg (hopc : opc ∈ registerWriters) (r : Fin 8) (hr : (r : Nat) = a.toNat) (v : Byte)
      (ht : t = (s.setReg r v).advance opc)
  | print (hopc : opc = opcPrn) (r : Fin 8) (hr : (r : Nat) = a.toNat) (ht : t = (s.emit (s.reg r)).advance opcPrn)
  | halt (hopc : opc = opcHlt) (ht : t = s.halt)
  | push (hopc : opc = opcPush) (hroom : s.stackLimit.toNat < s.sp.toNat) (v : Byte)
      (ht : t = ((s.setSp s.pushAddr).setByte s.pushAddr.toNat v).advance opcPush)
  | pop (hopc : opc = opcPop) (hfull : s.sp.toNat < 244) (r : Fin 8) (hr : (r : Nat) = a.toNat)
      (ht : t = ((s.setSp (s.sp + 1)).setReg r (s.mem.read s.sp.toNat)).advance opcPop)
  | call (hopc : opc = opcCall) (hroom : s.stackLimit.toNat < s.sp.toNat) (v target : Byte)
      (ht : t = ((s.setSp s.pushAddr).setByte s.pushAddr.toNat v).jump target)
  | ret (hopc : opc = opcRet) (hfull : s.sp.toNat < 244)
      (ht : t = (s.setSp (s.sp + 1)).jump (s.mem.read s.sp.toNat))

/-- An instruction whose operand bytes are fetched as `a` and `b` completes in one of the seven ways. -/
theorem change_of_effect {i : Instr} {a b : Byte} {s t : State} (hops : i.operands <+: [a, b]) (h : Effect i s t) :
    Change s t i.opcode a := by
  have writes (hi : i ∈ [Instr.ldi a b, .add a b, .sub a b, .mul a b, .div a b, .xor a b, .shl a b, .shr a b])
      (hopc : i.opcode ∈ registerWriters) : Change s t i.opcode a := by
    obtain ⟨r, v, hr, ht⟩ := effect_writeReg hi h
    exact .writeReg hopc r hr v ht
  cases i with simp only [Instr.operands, List.cons_prefix_cons, List.nil_prefix, and_true] at hops
  | prn => obtain ⟨ha, rfl⟩ := h; subst hops; exact .print rfl _ rfl rfl
  | hlt => exact .halt rfl h
  | push => obtain ⟨ha, hroom, rfl⟩ := h; exact .push rfl hroom _ rfl
  | pop => obtain ⟨ha, hfull, rfl⟩ := h; subst hops; exact .pop rfl hfull _ rfl rfl
  | call => obtain ⟨ha, hroom, rfl⟩ := h; exact .call rfl hroom _ _ rfl
  | ret => obtain ⟨hfull, rfl⟩ := h; exact .ret rfl hfull rfl
  | _ =>
    obtain ⟨rfl, rfl⟩ := hops
    exact writes (by simp) (by simp [Instr.opcode, registerWriters])

/-- What a step can do: take a fault, or complete the fetched instruction in one of the seven ways. -/
theorem step_change {s t : State} (h : step s = .next t) :
    s.status = .running ∧ ((∃ f, t = s.raise f) ∨ (s.pc.toNat ≤ 253 ∧ Change s t s.irByte s.aByte)) := by
  obtain ⟨hrun, ⟨f, -, ht⟩ | ⟨-, hpc, i, hdec, heff⟩⟩ := step_eq_next h
  · exact ⟨hrun, .inl ⟨f, ht⟩⟩
  · have hc := change_of_effect (operands_prefix_of_decode hdec) heff
    rw [opcode_of_decode hdec] at hc
    exact ⟨hrun, .inr ⟨hpc, hc⟩⟩

/-! ## Arithmetic of the program counter and the stack pointer -/

/-- The generic advance does not wrap from an address an instruction is fetched at (R88). -/
theorem State.advance_pc_toNat {s : State} {ir : Byte} (hpc : s.pc.toNat ≤ 253) (hn : operandCount ir ≤ 2) :
    (s.advance ir).pc.toNat = s.pc.toNat + (operandCount ir + 1) := by
  simp only [State.advance_pc, BitVec.toNat_add, BitVec.toNat_ofNat]
  omega

/-- The target of a jump is a byte's value. -/
theorem zext9_toNat (v : Byte) : (zext9 v).toNat = v.toNat := by
  have := v.isLt
  simp only [zext9, BitVec.toNat_setWidth]
  omega

/-- The increment of a pop does not wrap below `SP_INIT`. -/
theorem State.sp_succ_toNat {s : State} (h : s.sp.toNat < 244) : (s.sp + 1).toNat = s.sp.toNat + 1 := by
  bv_omega

/-! ## The invariant -/

/-- A push above `STACK_LIMIT` keeps memory canonical and the stack pointer inside the stack region. -/
theorem State.Inv.push {s : State} (h : s.Inv) (hroom : s.stackLimit.toNat < s.sp.toNat) (v : Byte) :
    ((s.setSp s.pushAddr).setByte s.pushAddr.toNat v).Inv := by
  obtain ⟨hmem, hlo, hhi, hpc⟩ := h
  have haddr := State.pushAddr_toNat (s := s) (by omega)
  refine ⟨Memory.write_wf hmem s.pushAddr.isLt, ?_, ?_, hpc⟩
  · change s.stackLimit.toNat ≤ s.pushAddr.toNat; omega
  · change s.pushAddr.toNat ≤ 244; omega

/-- A pop below `SP_INIT` keeps the stack pointer inside its bounds. -/
theorem State.Inv.pop {s : State} (h : s.Inv) (hfull : s.sp.toNat < 244) : (s.setSp (s.sp + 1)).Inv := by
  obtain ⟨hmem, hlo, hhi, hpc⟩ := h
  have hsp := State.sp_succ_toNat hfull
  refine ⟨hmem, ?_, ?_, hpc⟩
  · change s.stackLimit.toNat ≤ (s.sp + 1).toNat; omega
  · change (s.sp + 1).toNat ≤ 244; omega

/-- The generic advance from an address an instruction is fetched at keeps the invariant. -/
theorem State.Inv.advance {s : State} (h : s.Inv) {ir : Byte} (hpc : s.pc.toNat ≤ 253) (hn : operandCount ir ≤ 2) :
    (s.advance ir).Inv := by
  obtain ⟨hmem, hlo, hhi, -⟩ := h
  have := State.advance_pc_toNat hpc hn
  exact ⟨hmem, hlo, hhi, by omega⟩

/-- A jump keeps the invariant whatever its target. -/
theorem State.Inv.jump {s : State} (h : s.Inv) (v : Byte) : (s.jump v).Inv := by
  obtain ⟨hmem, hlo, hhi, -⟩ := h
  have := v.isLt
  exact ⟨hmem, hlo, hhi, by rw [State.jump_pc, zext9_toNat]; omega⟩

/-- An instruction fetched inside memory that completes keeps the invariant. -/
theorem Change.keeps_inv {s t : State} {opc a : Byte} (hc : Change s t opc a) (h : s.Inv)
    (hpc : s.pc.toNat ≤ 253) : t.Inv := by
  cases hc with
  | writeReg hopc r hr v ht =>
    have hw : (s.setReg r v).Inv := h
    exact ht ▸ hw.advance hpc (operandCount_of_mem_registerWriters hopc).le
  | print _ r _ ht =>
    have he : (s.emit (s.reg r)).Inv := h
    exact ht ▸ he.advance hpc (by simp)
  | halt _ ht => exact ht ▸ h
  | push _ hroom v ht => exact ht ▸ (h.push hroom v).advance hpc (by simp)
  | pop _ hfull r _ ht =>
    have hw : ((s.setSp (s.sp + 1)).setReg r (s.mem.read s.sp.toNat)).Inv := h.pop hfull
    exact ht ▸ hw.advance hpc (by simp)
  | call _ hroom v target ht => exact ht ▸ (h.push hroom v).jump target
  | ret _ hfull ht => exact ht ▸ (h.pop hfull).jump _

/-- Settles O13: a fault leaves the invariant's fields alone, and each way of completing keeps it. -/
theorem stepKeepsInvariant : Obligations.StepKeepsInvariant := by
  intro s t hinv h
  obtain ⟨-, ⟨f, rfl⟩ | ⟨hpc, hc⟩⟩ := step_change h
  · exact hinv
  · exact hc.keeps_inv hinv hpc

/-- A reset state with a legal `STACK_LIMIT` meets the invariant. -/
theorem resetWith_inv (r7 : Byte) {limit : Byte} (h : limit.toNat ≤ 244) : (State.resetWith r7 limit).Inv :=
  ⟨⟨List.Pairwise.nil, by simp [State.resetWith]⟩, h, Nat.le_refl 244, Nat.zero_le 256⟩

/-- Settles O14: the reset of R5's parameters is the case of the default `STACK_LIMIT`. -/
theorem resetMeetsInvariant : Obligations.ResetMeetsInvariant :=
  ⟨resetWith_inv _ (by decide), fun r7 _ => resetWith_inv r7⟩

/-- Settles O15: memory after reset lists no cell, so every address reads as the unlisted byte. -/
theorem resetValues : Obligations.ResetValues :=
  ⟨by decide, rfl, rfl, rfl, Memory.read_nil, rfl, rfl⟩

/-! ## Who changes what -/

/-- Settles O11: a fault ends in `Faulted`, and every way of completing but HLT's keeps the running status. -/
theorem haltedOnlyByHlt : Obligations.HaltedOnlyByHlt := by
  intro s t h hhalted
  obtain ⟨hrun, ⟨f, rfl⟩ | ⟨hpc, hc⟩⟩ := step_change h
  · cases hhalted
  cases hc with
  | halt hopc ht => exact ⟨hopc, hpc, ht⟩
  | _ =>
    subst t
    cases hrun.symm.trans hhalted

/-- Settles O18: PUSH and CALL write the decremented stack pointer, POP and RET the incremented one. -/
theorem stackPointerChangesOnlyByStackOps : Obligations.StackPointerChangesOnlyByStackOps := by
  intro s t h hsp
  obtain ⟨-, ⟨f, rfl⟩ | ⟨-, hc⟩⟩ := step_change h
  · exact absurd rfl hsp
  have pushed (hroom : s.stackLimit.toNat < s.sp.toNat) : s.pushAddr.toNat + 1 = s.sp.toNat := by
    have := State.pushAddr_toNat (s := s) (by omega)
    omega
  cases hc with
  | writeReg | print | halt => subst t; exact absurd rfl hsp
  | push hopc hroom _ ht => subst ht; exact .inl ⟨by simp [hopc], pushed hroom⟩
  | call hopc hroom _ _ ht => subst ht; exact .inl ⟨by simp [hopc], pushed hroom⟩
  | pop hopc hfull _ _ ht => subst ht; exact .inr ⟨by simp [hopc], State.sp_succ_toNat hfull⟩
  | ret hopc hfull ht => subst ht; exact .inr ⟨by simp [hopc], State.sp_succ_toNat hfull⟩

/-- Settles O19: of the seven ways of completing only PRN's writes the output. -/
theorem outputChangesOnlyByPrn : Obligations.OutputChangesOnlyByPrn := by
  intro s t h hout
  obtain ⟨-, ⟨f, rfl⟩ | ⟨-, hc⟩⟩ := step_change h
  · exact absurd rfl hout
  cases hc with
  | print hopc r hr ht => exact ⟨hopc, r, hr, ht ▸ rfl⟩
  | _ => subst t; exact absurd rfl hout

/-- A register that a write to `j` changed is `j`. -/
theorem State.eq_of_setReg_reg_ne {s : State} {i j : Fin Config.nreg} {v : Byte}
    (h : (s.setReg j v).reg i ≠ s.reg i) : i = j := by
  by_contra hij
  exact h (State.setReg_reg_other s v hij)

/-- Settles O20: the register writers and POP write the register operand `a` names, the other ways write none. -/
theorem registersChangeOnlyByNamingThem : Obligations.RegistersChangeOnlyByNamingThem := by
  intro s t r h hreg
  obtain ⟨-, ⟨f, rfl⟩ | ⟨-, hc⟩⟩ := step_change h
  · exact absurd rfl hreg
  cases hc with
  | writeReg hopc j hj v ht =>
    subst ht
    obtain rfl := State.eq_of_setReg_reg_ne hreg
    have hsub : registerWriters ⊆ [opcLdi, opcPop, opcAdd, opcSub, opcMul, opcDiv, opcXor, opcShl, opcShr] := by decide
    exact ⟨hj, hsub hopc⟩
  | pop hopc _ j hj ht =>
    subst ht
    obtain rfl := State.eq_of_setReg_reg_ne (s := s.setSp (s.sp + 1)) hreg
    exact ⟨hj, by simp [hopc]⟩
  | _ => subst t; exact absurd rfl hreg

/-- Settles O38: a fault is the whole change; completing, the instruction wrote one register and advanced. -/
theorem registerWritersFrame : Obligations.RegisterWritersFrame := by
  intro a b i s t hi h
  rcases exec_eq_next h with ⟨f, -, rfl⟩ | ⟨-, heff⟩
  · exact ⟨fun _ _ => rfl, fun _ => rfl, rfl, rfl, rfl, .inr ⟨f, rfl⟩⟩
  · obtain ⟨j, v, hj, rfl⟩ := effect_writeReg hi heff
    refine ⟨fun r hr => ?_, fun _ => rfl, rfl, rfl, rfl, .inl rfl⟩
    exact State.setReg_reg_other s v fun hrj => hr (hrj ▸ hj)

/-! ## The output is never read -/

/-- An effect determines the next state. -/
theorem Effect.unique {i : Instr} {s t u : State} (ht : Effect i s t) (hu : Effect i s u) : t = u := by
  cases i with
  | hlt => exact ht.trans hu.symm
  | ldi | prn | ret =>
    obtain ⟨_, rfl⟩ := ht
    obtain ⟨_, rfl⟩ := hu
    rfl
  | _ =>
    obtain ⟨_, _, rfl⟩ := ht
    obtain ⟨_, _, rfl⟩ := hu
    rfl

/-- A running machine has a next state. -/
theorem step_of_running {s : State} (h : s.status = .running) : ∃ t, step s = .next t := by
  unfold step
  rw [h]
  cases fetchInstr s with
  | error f => exact ⟨_, rfl⟩
  | ok i =>
    rcases exec_does i s with ⟨f, -, he⟩ | ⟨-, t, -, he⟩
    · exact ⟨_, he⟩
    · exact ⟨t, he⟩

/-- `step_eq_next` in both directions: the due fault, or the effect of the fetched instruction, is the step. -/
theorem step_eq_next_iff {s t : State} :
    step s = .next t ↔ s.status = .running ∧
      ((∃ f, s.dueFault = some f ∧ t = s.raise f) ∨
        (s.dueFault = none ∧ s.pc.toNat ≤ 253 ∧ ∃ i, decode s.irByte s.aByte s.bByte = .ok i ∧ Effect i s t)) := by
  refine ⟨step_eq_next, fun ⟨hrun, ht⟩ => ?_⟩
  obtain ⟨u, hu⟩ := step_of_running hrun
  suffices t = u from this ▸ hu
  obtain ⟨-, hu⟩ := step_eq_next hu
  rcases ht with ⟨f, hf, rfl⟩ | ⟨hnone, -, i, hi, heff⟩ <;> rcases hu with ⟨g, hg, rfl⟩ | ⟨hnone', -, j, hj, heff'⟩
  · rw [Option.some.inj (hf.symm.trans hg)]
  · cases hf.symm.trans hnone'
  · cases hnone.symm.trans hg
  · cases hi.symm.trans hj
    exact heff.unique heff'

/-- The machine that had printed `o` before everything else. -/
def State.printedBefore (s : State) (o : List Byte) : State := { s with out := o ++ s.out }

/-- An effect on a machine that has printed more before is the same effect: no effect reads the output. -/
theorem Effect.printedBefore {i : Instr} {s t : State} (h : Effect i s t) (o : List Byte) :
    Effect i (s.printedBefore o) (t.printedBefore o) := by
  cases i with
  | prn a =>
    obtain ⟨ha, rfl⟩ := h
    exact ⟨ha, by simp [State.printedBefore, State.emit, State.advance, State.reg]⟩
  | hlt => exact h ▸ rfl
  | ldi | ret => obtain ⟨hcond, rfl⟩ := h; exact ⟨hcond, rfl⟩
  | _ => obtain ⟨hfst, hsnd, rfl⟩ := h; exact ⟨hfst, hsnd, rfl⟩

/-- A step that stops does so for the status alone, so every state of that status stops alike. -/
theorem step_eq_fault_of_status_eq {s u : State} {f : Fault} (h : step s = .fault f) (hstatus : u.status = s.status) :
    step u = .fault f := by
  cases hs : s.status with
  | running =>
    obtain ⟨t, ht⟩ := step_of_running hs
    cases ht.symm.trans h
  | halted => simpa [step, hstatus, hs] using h
  | faulted r => simpa [step, hstatus, hs] using h

/-- Settles O22: the due fault, the decoded instruction and its effect are those of the machine that printed less. -/
theorem outputNeverRead : Obligations.OutputNeverRead := by
  refine fun s o => ⟨fun t h => ?_, fun f h => step_eq_fault_of_status_eq h rfl⟩
  obtain ⟨hrun, ⟨f, hf, rfl⟩ | ⟨hnone, hpc, i, hi, heff⟩⟩ := step_eq_next_iff.mp h
  · exact step_eq_next_iff.mpr ⟨hrun, .inl ⟨f, hf, rfl⟩⟩
  · exact step_eq_next_iff.mpr ⟨hrun, .inr ⟨hnone, hpc, i, hi, heff.printedBefore o⟩⟩

end Sys2Proof.Machine

/-! # The memory family (20_memory.md): what a push writes, and what nothing else writes -/

namespace Sys2Proof.Machine

/-- What memory reads as after a push above `STACK_LIMIT`: the pushed byte below the old stack pointer, the old byte
everywhere else (R44, R131). -/
theorem State.read_pushed {s : State} (hmem : s.mem.wf) (hroom : s.stackLimit.toNat < s.sp.toNat) (v : Byte) (c : Nat) :
    ((s.setSp s.pushAddr).setByte s.pushAddr.toNat v).mem.read c = if c + 1 = s.sp.toNat then v else s.mem.read c := by
  have haddr := State.pushAddr_toNat (s := s) (by omega)
  have hiff : c = s.pushAddr.toNat ↔ c + 1 = s.sp.toNat := by omega
  simp only [State.setByte_mem, State.setSp_mem, Memory.read_write hmem, hiff]

/-- A byte a push changed is the one below the old stack pointer. -/
theorem State.eq_of_read_pushed_ne {s : State} {v : Byte} {c : Nat} (hmem : s.mem.wf)
    (hroom : s.stackLimit.toNat < s.sp.toNat)
    (h : ((s.setSp s.pushAddr).setByte s.pushAddr.toNat v).mem.read c ≠ s.mem.read c) : c + 1 = s.sp.toNat := by
  by_contra hc
  exact h (by rw [State.read_pushed hmem hroom, if_neg hc])

/-- Settles O21: of the seven ways of completing only PUSH's and CALL's write memory, and each writes by a push that passed
the guard. -/
theorem memoryChangesOnlyByPushes : Obligations.MemoryChangesOnlyByPushes := by
  intro s t c hmem h hread
  obtain ⟨-, ⟨f, rfl⟩ | ⟨-, hc⟩⟩ := step_change h
  · exact absurd rfl hread
  cases hc with
  | push hopc hroom v ht | call hopc hroom v _ ht =>
    subst ht
    have hbelow := State.eq_of_read_pushed_ne hmem hroom hread
    exact ⟨by simp [hopc], hbelow, by omega⟩
  | _ => subst t; exact absurd rfl hread

/-! ## Runs -/

/-- No step changes `STACK_LIMIT`. -/
theorem step_stackLimit {s t : State} (h : step s = .next t) : t.stackLimit = s.stackLimit := by
  obtain ⟨-, ⟨f, rfl⟩ | ⟨-, hc⟩⟩ := step_change h
  · rfl
  · cases hc <;> subst t <;> rfl

/-- A step from an invariant state leaves every byte outside the stack region alone: the one byte it may change lies at or
above `STACK_LIMIT` and below a stack pointer of at most `SP_INIT`. -/
theorem step_read_of_not_inStackRegion {s t : State} (hinv : s.Inv) (h : step s = .next t) {a : Nat}
    (ha : ¬ s.InStackRegion a) : t.mem.read a = s.mem.read a := by
  obtain ⟨hmem, -, hhi, -⟩ := hinv
  by_contra hread
  obtain ⟨-, hbelow, hlimit⟩ := memoryChangesOnlyByPushes s t a hmem h hread
  exact ha ⟨hlimit, by omega⟩

/-- Settles O17, by induction on the number of steps: the first step keeps the invariant, `STACK_LIMIT` and so the stack region,
and the bytes outside it; the rest of the run starts from there. -/
theorem runChangesOnlyStackRegion : Obligations.RunChangesOnlyStackRegion := by
  intro k
  induction k with
  | zero =>
    rintro s t - h
    cases h
    exact ⟨rfl, fun _ _ => rfl⟩
  | succ k ih =>
    intro s t hinv h
    obtain ⟨u, hstep, hrun⟩ := run_succ_eq_next h
    have hlimit := step_stackLimit hstep
    obtain ⟨hlimit', hread'⟩ := ih u t (stepKeepsInvariant s u hinv hstep) hrun
    refine ⟨hlimit'.trans hlimit, fun a ha => ?_⟩
    have ha' : ¬ u.InStackRegion a := by rwa [State.InStackRegion, hlimit]
    exact (hread' a ha').trans (step_read_of_not_inStackRegion hinv hstep ha)

/-! ## A store is seen by the next fetch -/

/-- A machine that can fetch runs the instruction its three bytes decode to (R81, R82). -/
theorem step_eq_exec {s : State} {i : Instr} (h : s.CanFetch) (hdec : decode s.irByte s.aByte s.bByte = .ok i) :
    step s = exec i s := by
  obtain ⟨hrun, hpc⟩ := h
  simp [step, hrun, fetchInstr, fetchBytes_of_le hpc, hdec]

/-- A fetched PUSH with a good index and room above `STACK_LIMIT` pushes the register and advances (R131). -/
theorem step_push {s : State} {a : Byte} (h : s.CanFetch) (hdec : decode s.irByte s.aByte s.bByte = .ok (.push a))
    (ha : a.toNat < 8) (hroom : s.stackLimit.toNat < s.sp.toNat) :
    step s = .next (((s.setSp s.pushAddr).setByte s.pushAddr.toNat (s.reg ⟨a.toNat, ha⟩)).advance opcPush) := by
  simp [step_eq_exec h hdec, exec, execPush, regIndex_of_lt ha, State.pushByte_of_lt _ hroom]

/-- What the next fetch sees of a PUSH: the machine still runs, two bytes further, and memory reads the register's value below
the old stack pointer. -/
theorem exists_step_push {s : State} {a : Byte} (hmem : s.mem.wf) (h : s.CanFetch) (hopc : s.irByte = opcPush)
    (hopa : s.aByte = a) (ha : a.toNat < 8) (hroom : s.stackLimit.toNat < s.sp.toNat) :
    ∃ t, step s = .next t ∧ t.status = .running ∧ t.pc.toNat = s.pc.toNat + 2 ∧
      ∀ c, t.mem.read c = if c + 1 = s.sp.toNat then s.reg ⟨a.toNat, ha⟩ else s.mem.read c := by
  have hdec : decode s.irByte s.aByte s.bByte = .ok (.push a) := by rw [hopc, hopa, decode_push]
  obtain ⟨hrun, hpc⟩ := h
  exact ⟨_, step_push ⟨hrun, hpc⟩ hdec ha hroom, hrun, State.advance_pc_toNat hpc (by simp),
    State.read_pushed hmem hroom _⟩

/-- Settles O49: after the PUSH memory reads the pushed byte at the advanced program counter and the old bytes behind it, so
the next step fetches just the three bytes the premise decodes. -/
theorem pushedOpcodeRunsNext : Obligations.PushedOpcodeRunsNext := by
  intro s a ha i hinv hrun hpc hopc hopa hroom hsp hdec
  obtain ⟨hmem, -, -, -⟩ := hinv
  obtain ⟨t, ht, hrun', hpc', hread⟩ := exists_step_push hmem ⟨hrun, by omega⟩ hopc hopa ha hroom
  have hir : t.irByte = s.reg ⟨a.toNat, ha⟩ := by rw [State.irByte, hread, if_pos (by omega)]
  have hoa : t.aByte = s.mem.read (s.pc.toNat + 3) := by rw [State.aByte, hread, if_neg (by omega), hpc']
  have hob : t.bByte = s.mem.read (s.pc.toNat + 4) := by rw [State.bByte, hread, if_neg (by omega), hpc']
  exact ⟨t, ht, hpc', step_eq_exec ⟨hrun', by omega⟩ (by rw [hir, hoa, hob, hdec])⟩

end Sys2Proof.Machine

/-! # The encoding family (30_encoding.md): the fields of the opcode byte, and decoding against encoding -/

namespace Sys2Proof

/-! ## The fields of the opcode byte (R61) -/

@[simp] theorem operandCount_opcHlt : operandCount opcHlt = 0 := rfl
@[simp] theorem operandCount_opcCall : operandCount opcCall = 1 := rfl
@[simp] theorem operandCount_opcRet : operandCount opcRet = 0 := rfl

/-- The operand count, bits 7:6, is the byte divided by 64. -/
theorem operandCount_eq_div (ir : Byte) : operandCount ir = ir.toNat / 64 := by
  have hmask : (ir &&& 0xC0) >>> 6 = ir >>> 6 := by
    ext k hk
    interval_cases k <;> simp
  rw [operandCount, hmask, BitVec.toNat_ushiftRight, Nat.shiftRight_eq_div_pow]

/-- The ALU flag, bit 5, is the parity of the byte divided by 32. -/
theorem aluFlag_eq_true_iff (ir : Byte) : aluFlag ir = true ↔ ir.toNat / 32 % 2 = 1 := by
  have hbit : ((ir &&& 0x20) >>> 5).toNat = ir.toNat / 32 % 2 := by
    rw [BitVec.toNat_ushiftRight, BitVec.toNat_and, Nat.shiftRight_and_distrib, Nat.shiftRight_eq_div_pow]
    exact Nat.and_one_is_mod _
  rw [aluFlag, beq_iff_eq, ← BitVec.toNat_inj, hbit]
  rfl

/-- The clear ALU flag, in the same terms. -/
theorem aluFlag_eq_false_iff (ir : Byte) : aluFlag ir = false ↔ ir.toNat / 32 % 2 = 0 := by
  rw [← Bool.not_eq_true, aluFlag_eq_true_iff, Nat.mod_two_not_eq_one]

/-! ## Decoding against encoding -/

/-- Three fetched bytes that begin with the encoding of an instruction decode to it (R63, R68, R71). -/
theorem decode_of_encode_prefix {i : Instr} {ir a b : Byte} (h : encode i <+: [ir, a, b]) :
    decode ir a b = .ok i :=
  match i with
  | .ldi _ _ => Laws.RoundTrip.ldi _ _ _ _ _ h
  | .prn _ => Laws.RoundTrip.prn _ _ _ _ h
  | .hlt => Laws.RoundTrip.hlt _ _ _ h
  | .push _ => Laws.RoundTrip.push _ _ _ _ h
  | .pop _ => Laws.RoundTrip.pop _ _ _ _ h
  | .call _ => Laws.RoundTrip.call _ _ _ _ h
  | .ret => Laws.RoundTrip.ret _ _ _ h
  | .add _ _ => Laws.RoundTrip.add _ _ _ _ _ h
  | .sub _ _ => Laws.RoundTrip.sub _ _ _ _ _ h
  | .mul _ _ => Laws.RoundTrip.mul _ _ _ _ _ h
  | .div _ _ => Laws.RoundTrip.div _ _ _ _ _ h
  | .xor _ _ => Laws.RoundTrip.xor _ _ _ _ _ h
  | .shl _ _ => Laws.RoundTrip.shl _ _ _ _ _ h
  | .shr _ _ => Laws.RoundTrip.shr _ _ _ _ _ h

/-- Three fetched bytes begin with the encoding of the instruction they decode to: its opcode byte, then its operands. -/
theorem encode_prefix_of_decode {i : Instr} {ir a b : Byte} (h : decode ir a b = .ok i) :
    encode i <+: [ir, a, b] :=
  List.cons_prefix_cons.mpr ⟨opcode_of_decode h, Machine.operands_prefix_of_decode h⟩

/-- Settles O3: decoding inverts encoding and encoding inverts decoding. -/
theorem decodeExactlyEncodings : Obligations.DecodeExactlyEncodings :=
  fun _ _ _ _ => ⟨encode_prefix_of_decode, decode_of_encode_prefix⟩

/-- Settles O1: the bytes written out are the opcode bytes of the fourteen decoding laws. -/
theorem opcodeBytesDecode : Obligations.OpcodeBytesDecode := fun a b =>
  ⟨decode_ldi a b, decode_prn a b, decode_hlt a b, decode_push a b, decode_pop a b, decode_call a b, decode_ret a b,
    decode_add a b, decode_sub a b, decode_mul a b, decode_div a b, decode_xor a b, decode_shl a b, decode_shr a b⟩

/-! ## The defined bytes -/

/-- The opcode bytes of the seven ALU instructions (R67, D1). -/
def aluOpcodes : List Byte := [opcAdd, opcSub, opcMul, opcDiv, opcXor, opcShl, opcShr]

/-- The opcode bytes of the other seven instructions, in rising order (R66, R67, D1). -/
def otherOpcodes : List Byte := [opcHlt, opcRet, opcPush, opcPop, opcPrn, opcCall, opcLdi]

/-- The seven ALU opcode bytes have bit 5 set (R68). -/
theorem aluFlag_of_mem_aluOpcodes {ir : Byte} (h : ir ∈ aluOpcodes) : aluFlag ir = true := by
  revert ir
  decide

/-- The other seven opcode bytes have bit 5 clear (R68). -/
theorem aluFlag_of_mem_otherOpcodes {ir : Byte} (h : ir ∈ otherOpcodes) : aluFlag ir = false := by
  revert ir
  decide

/-- Every opcode byte is in one of the two lists. -/
theorem opcode_mem (i : Instr) : i.opcode ∈ aluOpcodes ∨ i.opcode ∈ otherOpcodes := by
  cases i <;> simp [Instr.opcode, aluOpcodes, otherOpcodes]

/-! ## Length and path of an instruction -/

/-- An instruction has as many operand bytes as its opcode byte counts (R62, R63). -/
theorem length_operands (i : Instr) : i.operands.length = operandCount i.opcode := by
  cases i <;> simp [Instr.operands, Instr.opcode]

/-- No opcode byte counts three operands (R62). -/
theorem operandCount_opcode_le (i : Instr) : operandCount i.opcode ≤ 2 := by
  rw [← length_operands]
  cases i <;> simp [Instr.operands]

/-- The ALU flag of an opcode byte is set exactly for the seven ALU instructions (R68). -/
theorem aluFlag_opcode_iff (i : Instr) : aluFlag i.opcode = true ↔
    ∃ a b, i ∈ [Instr.add a b, .sub a b, .mul a b, .div a b, .xor a b, .shl a b, .shr a b] := by
  cases i with
  | ldi | prn | hlt | push | pop | call | ret =>
    exact iff_of_false (Bool.eq_false_iff.mp (aluFlag_of_mem_otherOpcodes (by simp [Instr.opcode, otherOpcodes])))
      (by simp)
  | add a b | sub a b | mul a b | div a b | xor a b | shl a b | shr a b =>
    exact iff_of_true (aluFlag_of_mem_aluOpcodes (by simp [Instr.opcode, aluOpcodes])) ⟨a, b, by simp⟩

/-- Settles O2: the fields of the opcode byte as arithmetic, and what they are for each instruction. -/
theorem firstByteGivesLengthAndPath : Obligations.FirstByteGivesLengthAndPath := by
  intro i
  rw [← operandCount_eq_div, ← aluFlag_eq_true_iff]
  exact ⟨rfl, congrArg (· + 1) (length_operands i), operandCount_opcode_le i, rfl, aluFlag_opcode_iff i⟩

/-! ## The undefined bytes -/

/-- A byte of either list is recognised whatever follows it (R68, R71). -/
theorem exists_decode_of_mem {ir : Byte} (h : ir ∈ aluOpcodes ∨ ir ∈ otherOpcodes) (a b : Byte) :
    ∃ i, decode ir a b = .ok i := by
  simp only [aluOpcodes, otherOpcodes, List.mem_cons, List.not_mem_nil, or_false] at h
  rcases h with (rfl | rfl | rfl | rfl | rfl | rfl | rfl) | (rfl | rfl | rfl | rfl | rfl | rfl | rfl)
  · exact ⟨_, decode_add a b⟩
  · exact ⟨_, decode_sub a b⟩
  · exact ⟨_, decode_mul a b⟩
  · exact ⟨_, decode_div a b⟩
  · exact ⟨_, decode_xor a b⟩
  · exact ⟨_, decode_shl a b⟩
  · exact ⟨_, decode_shr a b⟩
  · exact ⟨_, decode_hlt a b⟩
  · exact ⟨_, decode_ret a b⟩
  · exact ⟨_, decode_push a b⟩
  · exact ⟨_, decode_pop a b⟩
  · exact ⟨_, decode_prn a b⟩
  · exact ⟨_, decode_call a b⟩
  · exact ⟨_, decode_ldi a b⟩

/-- A byte is rejected exactly when it is in neither list. -/
theorem exists_decode_error_iff {ir a b : Byte} :
    (∃ e, decode ir a b = .error e) ↔ ir ∉ aluOpcodes ∧ ir ∉ otherOpcodes := by
  rw [← not_or]
  constructor
  · rintro ⟨e, he⟩ hmem
    obtain ⟨i, hi⟩ := exists_decode_of_mem hmem a b
    cases he.symm.trans hi
  · intro hmem
    cases hdec : decode ir a b with
    | error e => exact ⟨e, rfl⟩
    | ok i => exact absurd (opcode_of_decode hdec ▸ opcode_mem i) hmem

/-- The two rejections and their bytes: bit 5 set and no ALU opcode, or bit 5 clear and none of the others (R69, R70). -/
theorem decode_eq_error_iff {ir a b : Byte} {e : Reject} : decode ir a b = .error e ↔
    (aluFlag ir = true ∧ ir ∉ aluOpcodes ∧ e = .unsupportedOperation ir) ∨
      (aluFlag ir = false ∧ ir ∉ otherOpcodes ∧ e = .unknownOpcode ir) := by
  constructor
  · intro h
    obtain ⟨halu, hother⟩ := exists_decode_error_iff.mp ⟨e, h⟩
    rcases reject_of_decode h with ⟨hset, he⟩ | ⟨hclear, he⟩
    · exact .inl ⟨hset, halu, he⟩
    · exact .inr ⟨hclear, hother, he⟩
  · rintro (⟨hset, halu, rfl⟩ | ⟨hclear, hother, rfl⟩)
    · have hother : ir ∉ otherOpcodes := fun hmem => by simp [aluFlag_of_mem_otherOpcodes hmem] at hset
      obtain ⟨e, h⟩ := exists_decode_error_iff.mpr ⟨halu, hother⟩
      have he : e = .unsupportedOperation ir := by simpa [hset] using reject_of_decode h
      exact he ▸ h
    · have halu : ir ∉ aluOpcodes := fun hmem => by simp [aluFlag_of_mem_aluOpcodes hmem] at hclear
      obtain ⟨e, h⟩ := exists_decode_error_iff.mpr ⟨halu, hother⟩
      have he : e = .unknownOpcode ir := by simpa [hclear] using reject_of_decode h
      exact he ▸ h

/-- The ALU opcode bytes as the numbers R67 prints. -/
theorem toNat_mem_aluOpcodes {ir : Byte} :
    ir.toNat ∈ [0xA0, 0xA1, 0xA2, 0xA3, 0xAB, 0xAC, 0xAD] ↔ ir ∈ aluOpcodes :=
  List.mem_map_of_injective (l := aluOpcodes) (fun _ _ => BitVec.eq_of_toNat_eq)

/-- The other opcode bytes as the numbers R66 and R67 print. -/
theorem toNat_mem_otherOpcodes {ir : Byte} :
    ir.toNat ∈ [0x01, 0x11, 0x45, 0x46, 0x47, 0x50, 0x82] ↔ ir ∈ otherOpcodes :=
  List.mem_map_of_injective (l := otherOpcodes) (fun _ _ => BitVec.eq_of_toNat_eq)

/-- Settles O4: the two rejections as they stand above, bit 5 and the bytes written as numbers. -/
theorem undefinedBytesRejectedByBitFive : Obligations.UndefinedBytesRejectedByBitFive := by
  intro ir a b
  rw [toNat_mem_aluOpcodes, toNat_mem_otherOpcodes, ← aluFlag_eq_false_iff, ← aluFlag_eq_true_iff]
  exact ⟨Iff.rfl, by simp [decode_eq_error_iff], by simp [decode_eq_error_iff]⟩

end Sys2Proof

namespace Sys2Proof.Machine

/-- A machine that can fetch, its three bytes rejected, takes the fault of the rejection (R87, R110, R160). -/
theorem step_eq_raise {s : State} {e : Reject} (h : s.CanFetch) (hdec : decode s.irByte s.aByte s.bByte = .error e) :
    step s = .next (s.raise (rejectReason s.pc e)) := by
  obtain ⟨hrun, hpc⟩ := h
  simp [step, hrun, fetchInstr, fetchBytes_of_le hpc, hdec]

/-- Settles O8: the byte is rejected under the name O4 gives it, and the step takes that fault. -/
theorem undefinedByteFaults : Obligations.UndefinedByteFaults := by
  intro s h
  obtain ⟨-, hunsupported, hunknown⟩ := undefinedBytesRejectedByBitFive s.irByte s.aByte s.bByte
  exact ⟨fun hbit hir => step_eq_raise h (hunsupported.mpr ⟨hbit, hir⟩),
    fun hbit hir => step_eq_raise h (hunknown.mpr ⟨hbit, hir⟩)⟩

end Sys2Proof.Machine

/-! # The execution loop family (40_execution_loop.md): what the lookahead, the fetch and the status do to a step -/

namespace Sys2Proof

/-! ## What the decoder reads of the lookahead -/

/-- The decoder reads the opcode byte and as many of the bytes after it as its operand count says (R71, R86). -/
theorem decode_eq_of_take_eq {ir a b a' b' : Byte}
    (h : [a, b].take (operandCount ir) = [a', b'].take (operandCount ir)) : decode ir a b = decode ir a' b' := by
  cases hdec : decode ir a b with
  | error e => exact (decode_eq_error_iff.mpr (decode_eq_error_iff.mp hdec)).symm
  | ok i =>
    obtain rfl := opcode_of_decode hdec
    have hops : i.operands = [a', b'].take (operandCount i.opcode) := by
      rw [← h, ← length_operands]
      exact List.prefix_iff_eq_take.mp (Machine.operands_prefix_of_decode hdec)
    have henc : encode i <+: [i.opcode, a', b'] :=
      List.cons_prefix_cons.mpr ⟨rfl, hops ▸ List.take_prefix _ _⟩
    exact (decode_of_encode_prefix henc).symm

/-- Settles O5: the bytes within the operand count are the same, and the decoder reads no other. -/
theorem unusedLookaheadIgnored : Obligations.UnusedLookaheadIgnored := by
  refine fun ir a b a' b' => ⟨fun h => decode_eq_of_take_eq ?_, fun h => decode_eq_of_take_eq ?_⟩
  · rcases Nat.le_one_iff_eq_zero_or_eq_one.mp h with h | h <;> simp [h]
  · simp [h]

/-- A decoded instruction other than CALL, RET and HLT has one operand if it is PRN, PUSH or POP, and two otherwise (R68). -/
theorem operandCount_of_decode {ir a b : Byte} {i : Instr} (hdec : decode ir a b = .ok i)
    (hcall : ∀ c, i ≠ .call c) (hret : i ≠ .ret) (hhlt : i ≠ .hlt) :
    operandCount ir = if i ∈ [Instr.prn a, .push a, .pop a] then 1 else 2 := by
  have hops := Machine.operands_prefix_of_decode hdec
  rw [← opcode_of_decode hdec]
  cases i with
  | call c => exact absurd rfl (hcall c)
  | ret => exact absurd rfl hret
  | hlt => exact absurd rfl hhlt
  | prn c | push c | pop c =>
    obtain ⟨rfl, -⟩ := List.cons_prefix_cons.mp hops
    simp [Instr.opcode]
  | _ => simp [Instr.opcode]

end Sys2Proof

namespace Sys2Proof.Machine

/-! ## The status and the fetch decide whether an instruction runs -/

/-- Settles O6: the three bytes are those the fetch names. -/
theorem stepRunsDecodedInstruction : Obligations.StepRunsDecodedInstruction :=
  fun _ _ => step_eq_exec

/-- Settles O7: the fetch bounds are the first fault of R91's list, so that fault is due whatever memory holds. -/
theorem fetchPastTopFaults : Obligations.FetchPastTopFaults :=
  fun _ hrun hpc => step_eq_next_iff.mpr ⟨hrun, .inl ⟨_, if_pos hpc, rfl⟩⟩

/-- Settles O9: a running machine has a next state, and only its status stops a machine. -/
theorem stepExactlyWhileRunning : Obligations.StepExactlyWhileRunning := by
  refine fun s => ⟨⟨?_, step_of_running⟩, fun h => by rw [step, h], fun r h => by rw [step, h]⟩
  rintro ⟨t, ht⟩
  exact (step_eq_next ht).1

/-! ## Faults exactly when due -/

/-- An instruction that completes keeps the status or halts the machine; it raises no fault. -/
theorem Change.status_eq_or_halted {s t : State} {opc a : Byte} (hc : Change s t opc a) :
    t.status = s.status ∨ t.status = .halted := by
  cases hc with
  | halt _ ht => exact .inr (ht ▸ rfl)
  | _ => subst t; exact .inl rfl

/-- Settles O12: a step takes the fault that is due, and completes, which raises none, where none is due. -/
theorem faultExactlyWhenDue : Obligations.FaultExactlyWhenDue := by
  intro s t f h
  obtain ⟨hrun, ⟨g, hg, rfl⟩ | ⟨hnone, -, i, hdec, heff⟩⟩ := step_eq_next h
  · simp [hg]
  · have hstatus := (change_of_effect (operands_prefix_of_decode hdec) heff).status_eq_or_halted
    rw [hrun] at hstatus
    rcases hstatus with ht | ht <;> simp [ht, hnone]

/-! ## The generic advance -/

/-- An instruction other than CALL, RET and HLT that completes leaves the program counter to the generic advance (R88, R89). -/
theorem Effect.pc_eq_advance {i : Instr} {s t : State} (h : Effect i s t)
    (hcall : ∀ a, i ≠ .call a) (hret : i ≠ .ret) (hhlt : i ≠ .hlt) : t.pc = (s.advance i.opcode).pc := by
  cases i with
  | call a => exact absurd rfl (hcall a)
  | ret => exact absurd rfl hret
  | hlt => exact absurd rfl hhlt
  | ldi | prn => obtain ⟨_, rfl⟩ := h; rfl
  | _ => obtain ⟨_, _, rfl⟩ := h; rfl

/-- Settles O42: no fault was taken, so the decoded instruction had its effect, and the advance does not wrap. -/
theorem genericAdvanceIsExact : Obligations.GenericAdvanceIsExact := by
  rintro s t i ⟨-, hpc⟩ hdec hcall hret hhlt hstep hrun
  obtain ⟨-, ⟨f, -, rfl⟩ | ⟨-, -, j, hj, heff⟩⟩ := step_eq_next hstep
  · cases hrun
  cases hdec.symm.trans hj
  have hn : operandCount s.irByte ≤ 2 := opcode_of_decode hdec ▸ operandCount_opcode_le i
  have hadv : t.pc.toNat = s.pc.toNat + (operandCount s.irByte + 1) := by
    rw [heff.pc_eq_advance hcall hret hhlt, opcode_of_decode hdec, State.advance_pc_toNat hpc hn]
  rw [← operandCount_eq_div]
  exact ⟨hadv, by omega, operandCount_of_decode hdec hcall hret hhlt⟩

end Sys2Proof.Machine

/-! # The ALU family (41_alu.md): the result of each operation, and what becomes of it in the destination -/

namespace Sys2Proof.Machine

/-! ## An instruction whose fault, or whose effect, is known -/

/-- An instruction with a fault due takes it. -/
theorem exec_eq_raise {i : Instr} {s : State} {f : FaultReason} (hf : s.instrFault i = some f) :
    exec i s = .next (s.raise f) := by
  rcases exec_does i s with ⟨g, hg, he⟩ | ⟨hnone, -⟩
  · rw [he, Option.some.inj (hf.symm.trans hg)]
  · cases hf.symm.trans hnone

/-- An instruction with no fault due has its effect. -/
theorem exec_eq_effect {i : Instr} {s t : State} (hnone : s.instrFault i = none) (ht : Effect i s t) :
    exec i s = .next t := by
  rcases exec_does i s with ⟨f, hf, -⟩ | ⟨-, u, hu, he⟩
  · cases hf.symm.trans hnone
  · rw [he, hu.unique ht]

/-! ## The seven ALU instructions as one -/

/-- `i` is the ALU instruction on the operand bytes `a` and `b` that computes `f` (R100). -/
inductive IsAlu (a b : Byte) : Instr → (Byte → Byte → Byte) → Prop
  | add : IsAlu a b (.add a b) aluAdd
  | sub : IsAlu a b (.sub a b) aluSub
  | mul : IsAlu a b (.mul a b) aluMul
  | div : IsAlu a b (.div a b) aluDiv
  | xor : IsAlu a b (.xor a b) aluXor
  | shl : IsAlu a b (.shl a b) aluShl
  | shr : IsAlu a b (.shr a b) aluShr

namespace IsAlu

variable {a b : Byte} {i : Instr} {f : Byte → Byte → Byte} {s : State}

theorem regOperands_eq (h : IsAlu a b i f) : regOperands i = [a, b] := by
  cases h <;> rfl

theorem operandCount_opcode (h : IsAlu a b i f) : operandCount i.opcode = 2 := by
  rw [← length_operands]
  cases h <;> rfl

theorem effect_iff (h : IsAlu a b i f) {t : State} : Effect i s t ↔ AluEffect f i.opcode a b s t := by
  cases h <;> exact Iff.rfl

/-- A destination index of 8 or more faults first, whatever the source index is (D6, D15). -/
theorem exec_of_ge_left (h : IsAlu a b i f) (ha : 8 ≤ a.toNat) :
    exec i s = .next (s.raise (.outOfBounds .reg a.toNat)) :=
  exec_eq_raise (by rw [instrFault_of_two h.regOperands_eq, if_pos ha])

/-- Behind a good destination index a source index of 8 or more faults (D6, D15). -/
theorem exec_of_ge_right (h : IsAlu a b i f) (ha : a.toNat < 8) (hb : 8 ≤ b.toNat) :
    exec i s = .next (s.raise (.outOfBounds .reg b.toNat)) :=
  exec_eq_raise (by rw [instrFault_of_two h.regOperands_eq, if_neg (Nat.not_le.mpr ha), if_pos hb])

/-- With two good indices only the instruction's own fault can be due. -/
theorem instrFault_of_lt (h : IsAlu a b i f) (ha : a.toNat < 8) (hb : b.toNat < 8) : s.instrFault i = s.ownFault i := by
  rw [instrFault_of_two h.regOperands_eq, if_neg (Nat.not_le.mpr ha), if_neg (Nat.not_le.mpr hb)]

/-- With two good indices and no fault of its own the instruction writes the result to the destination and advances. -/
theorem exec_eq_advance (h : IsAlu a b i f) (hown : s.ownFault i = none) (ha : a.toNat < 8) (hb : b.toNat < 8) :
    exec i s = .next ((s.setReg ⟨a.toNat, ha⟩ (f (s.reg ⟨a.toNat, ha⟩) (s.reg ⟨b.toNat, hb⟩))).advance i.opcode) :=
  exec_eq_effect ((h.instrFault_of_lt ha hb).trans hown) (h.effect_iff.mpr ⟨ha, hb, rfl⟩)

/-- The same state as an update of `s`: the destination register and `pc + 3`, nothing else. -/
theorem exec_of_lt (h : IsAlu a b i f) (hown : s.ownFault i = none) (ha : a.toNat < 8) (hb : b.toNat < 8) :
    exec i s = .next { s with
      x := s.x.set a.toNat (f (s.reg ⟨a.toNat, ha⟩) (s.reg ⟨b.toNat, hb⟩)) ha
      pc := s.pc + 3 } := by
  rw [h.exec_eq_advance hown ha hb, State.advance, h.operandCount_opcode]
  rfl

/-- What the destination reads as afterwards. -/
theorem exists_exec_reg (h : IsAlu a b i f) (hown : s.ownFault i = none) (ha : a.toNat < 8) (hb : b.toNat < 8) {v : Byte}
    (hv : f (s.reg ⟨a.toNat, ha⟩) (s.reg ⟨b.toNat, hb⟩) = v) :
    ∃ t, exec i s = .next t ∧ t.reg ⟨a.toNat, ha⟩ = v :=
  ⟨_, h.exec_eq_advance hown ha hb, by rw [State.advance_reg, State.setReg_reg_same, hv]⟩

end IsAlu

/-- With a good source index DIV's own fault is the zero divisor (R155). -/
theorem ownFault_div {a b : Byte} {s : State} (hb : b.toNat < 8) :
    s.ownFault (.div a b) = if s.reg ⟨b.toNat, hb⟩ = 0 then some (.divisionByZero s.pc) else none := by
  have hget : s.x[b.toNat]? = some (s.reg ⟨b.toNat, hb⟩) := Vector.getElem?_eq_getElem hb
  simp only [State.ownFault, hget, Option.some.injEq]

/-! ## The results as arithmetic on the operands' values -/

/-- An integer narrows to the byte of any natural number it is congruent to (R7). -/
theorem trunc8_eq_ofNat {v : Int} {n : Nat} (h : v % 256 = n % 256) : trunc8 v = BitVec.ofNat 8 (n % 256) := by
  have hv := trunc8_toNat v
  apply BitVec.eq_of_toNat_eq
  rw [BitVec.toNat_ofNat]
  omega

theorem aluAdd_eq (va vb : Byte) : aluAdd va vb = BitVec.ofNat 8 ((va.toNat + vb.toNat) % 256) :=
  trunc8_eq_ofNat (by push_cast; rfl)

/-- The added 256 keeps the difference a natural number. -/
theorem aluSub_eq (va vb : Byte) : aluSub va vb = BitVec.ofNat 8 ((256 + va.toNat - vb.toNat) % 256) :=
  trunc8_eq_ofNat (by have := vb.isLt; omega)

theorem aluMul_eq (va vb : Byte) : aluMul va vb = BitVec.ofNat 8 (va.toNat * vb.toNat % 256) :=
  trunc8_eq_ofNat (by push_cast; rfl)

theorem aluShl_eq (va vb : Byte) : aluShl va vb = BitVec.ofNat 8 (va.toNat * 2 ^ vb.toNat % 256) :=
  trunc8_eq_ofNat (by push_cast; rfl)

theorem aluXor_eq (va vb : Byte) : aluXor va vb = BitVec.ofFnLE fun k : Fin 8 => va[k] != vb[k] := by
  ext k hk
  simp [aluXor]

theorem aluDiv_toNat (va vb : Byte) : (aluDiv va vb).toNat = va.toNat / vb.toNat := by
  have hle : va.toNat / vb.toNat ≤ va.toNat := Nat.div_le_self _ _
  rw [aluDiv, BitVec.toNat_ofNat, Nat.mod_eq_of_lt (hle.trans_lt va.isLt)]

/-- The quotient times the divisor is a byte again, so the product is not truncated. -/
theorem aluMul_aluDiv_toNat (va vb : Byte) : (aluMul (aluDiv va vb) vb).toNat = va.toNat / vb.toNat * vb.toNat := by
  have hle : va.toNat / vb.toNat * vb.toNat ≤ va.toNat := Nat.div_mul_le_self _ _
  rw [aluMul_eq, aluDiv_toNat, BitVec.toNat_ofNat, Nat.mod_mod, Nat.mod_eq_of_lt (hle.trans_lt va.isLt)]

theorem aluSub_self (v : Byte) : aluSub v v = 0 := by
  rw [aluSub, Int.sub_self]
  rfl

theorem aluDiv_self {v : Byte} (hv : v ≠ 0) : aluDiv v v = 1 := by
  have hpos : 0 < v.toNat := BitVec.toNat_pos_of_ne_zero hv
  rw [aluDiv, Nat.div_self hpos]
  rfl

/-- A power of two above the value leaves nothing of it. -/
theorem aluShr_eq_zero {va vb : Byte} (h : va.toNat < 2 ^ vb.toNat) : aluShr va vb = 0 := by
  rw [aluShr, Nat.div_eq_of_lt h]
  rfl

/-- An amount of 8 or more makes the power a multiple of 256 (D10). -/
theorem aluShl_eq_zero (va : Byte) {vb : Byte} (h : 8 ≤ vb.toNat) : aluShl va vb = 0 := by
  have hdvd : 256 ∣ va.toNat * 2 ^ vb.toNat := (Nat.pow_dvd_pow 2 h).mul_left _
  rw [aluShl_eq, Nat.mod_eq_zero_of_dvd hdvd]
  rfl

/-! ## One instruction -/

/-- Settles O24: the exact sum is what the model narrows. -/
theorem addWritesSumModulo256 : Obligations.AddWritesSumModulo256 := fun _ _ _ =>
  ⟨rfl, fun ha hb => aluAdd_eq _ _ ▸ IsAlu.add.exec_of_lt rfl ha hb, IsAlu.add.exec_of_ge_left, IsAlu.add.exec_of_ge_right⟩

/-- Settles O25: the integer difference is congruent to the natural one. -/
theorem subWritesDifferenceModulo256 : Obligations.SubWritesDifferenceModulo256 := fun _ _ _ =>
  ⟨rfl, fun ha hb => aluSub_eq _ _ ▸ IsAlu.sub.exec_of_lt rfl ha hb, IsAlu.sub.exec_of_ge_left, IsAlu.sub.exec_of_ge_right⟩

/-- Settles O26: the exact product is what the model narrows. -/
theorem mulWritesProductModulo256 : Obligations.MulWritesProductModulo256 := fun _ _ _ =>
  ⟨rfl, fun ha hb => aluMul_eq _ _ ▸ IsAlu.mul.exec_of_lt rfl ha hb, IsAlu.mul.exec_of_ge_left, IsAlu.mul.exec_of_ge_right⟩

/-- Settles O27: with good indices the zero divisor is the one fault DIV can be due, and it decides which case happens. -/
theorem divWritesTruncatedQuotient : Obligations.DivWritesTruncatedQuotient := by
  refine fun a b s => ⟨rfl, fun ha hb hne => ?_, fun ha hb hz => ?_, IsAlu.div.exec_of_ge_left, IsAlu.div.exec_of_ge_right⟩
  · exact IsAlu.div.exec_of_lt ((ownFault_div hb).trans (if_neg hne)) ha hb
  · exact exec_eq_raise ((IsAlu.div.instrFault_of_lt ha hb).trans ((ownFault_div hb).trans (if_pos hz)))

/-- Settles O28: the bits of the word XOR. -/
theorem xorWritesBitwiseDifference : Obligations.XorWritesBitwiseDifference := fun _ _ _ =>
  ⟨rfl, fun ha hb => aluXor_eq _ _ ▸ IsAlu.xor.exec_of_lt rfl ha hb, IsAlu.xor.exec_of_ge_left, IsAlu.xor.exec_of_ge_right⟩

/-- Settles O29: the exact product with the power is what the model narrows. -/
theorem shlWritesTruncatedPower : Obligations.ShlWritesTruncatedPower := fun _ _ _ =>
  ⟨rfl, fun ha hb => aluShl_eq _ _ ▸ IsAlu.shl.exec_of_lt rfl ha hb, IsAlu.shl.exec_of_ge_left, IsAlu.shl.exec_of_ge_right⟩

/-- Settles O30: the quotient by the power is the model's own result. -/
theorem shrWritesLogicalQuotient : Obligations.ShrWritesLogicalQuotient := fun _ _ _ =>
  ⟨rfl, IsAlu.shr.exec_of_lt rfl, IsAlu.shr.exec_of_ge_left, IsAlu.shr.exec_of_ge_right⟩

/-! ## Laws between results -/

/-- Settles O46: the divisor's register survives DIV, so the destination ends as `va / vb * vb`, which falls short of `va` by
the remainder. -/
theorem divideThenMultiplyBounds : Obligations.DivideThenMultiplyBounds := by
  intro s a b ha hb hab hne
  have hreg : (⟨b.toNat, hb⟩ : Fin 8) ≠ ⟨a.toNat, ha⟩ := fun h => hab (BitVec.eq_of_toNat_eq (Fin.mk.inj h).symm)
  have hdiv := IsAlu.div.exec_eq_advance ((ownFault_div hb).trans (if_neg hne)) ha hb
  refine ⟨_, _, hdiv, IsAlu.mul.exec_eq_advance rfl ha hb, ?_⟩
  simp only [State.advance_reg, State.setReg_reg_same, State.setReg_reg_other _ _ hreg]
  rw [← BitVec.toNat_inj, aluMul_aluDiv_toNat, ← Nat.dvd_iff_div_mul_eq]
  refine ⟨Nat.div_mul_le_self _ _, ?_, Iff.rfl⟩
  rw [← Nat.mod_eq_sub_div_mul]
  exact Nat.mod_lt _ (BitVec.toNat_pos_of_ne_zero hne)

/-- Settles O47: the result of each operation on a value and itself; SHR's amount exceeds the value's length in bits. -/
theorem selfOperandResults : Obligations.SelfOperandResults := fun _ _ ha =>
  ⟨IsAlu.xor.exists_exec_reg rfl ha ha BitVec.xor_self,
    IsAlu.sub.exists_exec_reg rfl ha ha (aluSub_self _),
    IsAlu.shr.exists_exec_reg rfl ha ha (aluShr_eq_zero Nat.lt_two_pow_self),
    fun hne => IsAlu.div.exists_exec_reg ((ownFault_div ha).trans (if_neg hne)) ha ha (aluDiv_self hne)⟩

/-- Settles O48: from 8 on the power reaches 256, above every byte. -/
theorem largeShiftsClear : Obligations.LargeShiftsClear := by
  intro s a b ha hb hge
  have hlt : (s.reg ⟨a.toNat, ha⟩).toNat < 2 ^ (s.reg ⟨b.toNat, hb⟩).toNat :=
    (s.reg ⟨a.toNat, ha⟩).isLt.trans_le (Nat.pow_le_pow_right Nat.two_pos hge)
  exact ⟨IsAlu.shl.exists_exec_reg rfl ha hb (aluShl_eq_zero _ hge),
    IsAlu.shr.exists_exec_reg rfl ha hb (aluShr_eq_zero hlt)⟩

end Sys2Proof.Machine

/-! # The load, print and halt family (42_load_print_halt.md): LDI, PRN and HLT -/

namespace Sys2Proof.Machine

/-! ## LDI and PRN on a good and on a bad register operand -/

/-- An instruction whose one register operand is 8 or more takes the index fault (D6). -/
theorem exec_of_one_ge {i : Instr} {s : State} {a : Byte} (hi : regOperands i = [a]) (ha : 8 ≤ a.toNat) :
    exec i s = .next (s.raise (.outOfBounds .reg a.toNat)) :=
  exec_eq_raise (by rw [instrFault_of_one hi, if_pos ha])

/-- With its one register operand below 8 and no fault of its own an instruction has its effect. -/
theorem exec_of_one_lt {i : Instr} {s t : State} {a : Byte} (hi : regOperands i = [a]) (hown : s.ownFault i = none)
    (ha : a.toNat < 8) (ht : Effect i s t) : exec i s = .next t :=
  exec_eq_effect (by rw [instrFault_of_one hi, if_neg (Nat.not_le.mpr ha), hown]) ht

/-- LDI with a good index writes the immediate and advances (R120). -/
theorem exec_ldi {a : Byte} (b : Byte) (s : State) (ha : a.toNat < 8) :
    exec (.ldi a b) s = .next ((s.setReg ⟨a.toNat, ha⟩ b).advance opcLdi) :=
  exec_of_one_lt rfl rfl ha ⟨ha, rfl⟩

/-- PRN with a good index emits the register and advances (R121). -/
theorem exec_prn {a : Byte} (s : State) (ha : a.toNat < 8) :
    exec (.prn a) s = .next ((s.emit (s.reg ⟨a.toNat, ha⟩)).advance opcPrn) :=
  exec_of_one_lt rfl rfl ha ⟨ha, rfl⟩

/-- HLT halts whatever the state (R122). -/
theorem exec_hlt (s : State) : exec .hlt s = .next s.halt :=
  exec_eq_effect rfl rfl

/-- Settles O31: the advance past LDI's two operands is `pc + 3`. -/
theorem ldiWritesImmediate : Obligations.LdiWritesImmediate :=
  fun _ b s => ⟨rfl, exec_ldi b s, exec_of_one_ge rfl⟩

/-- Settles O32: the advance past PRN's operand is `pc + 2`. -/
theorem prnAppendsRegister : Obligations.PrnAppendsRegister :=
  fun _ s => ⟨rfl, exec_prn s, exec_of_one_ge rfl⟩

/-! ## What PRN and HLT leave alone -/

/-- Settles O41: a fault is the whole change; completing, PRN wrote the output and advanced, and HLT wrote the status. -/
theorem prnHltFrame : Obligations.PrnHltFrame := by
  intro a i s t hi h
  simp only [List.mem_cons, List.not_mem_nil, or_false] at hi
  rcases hi with rfl | rfl
  case inl =>
    rcases exec_eq_next h with ⟨f, -, rfl⟩ | ⟨-, ha, rfl⟩
    · exact ⟨rfl, fun _ => rfl, rfl, rfl, fun _ => .inr ⟨f, rfl⟩, nofun⟩
    · exact ⟨rfl, fun _ => rfl, rfl, rfl, fun _ => .inl rfl, nofun⟩
  case inr =>
    cases (exec_hlt s).symm.trans h
    exact ⟨rfl, fun _ => rfl, rfl, rfl, nofun, fun _ => ⟨rfl, rfl, rfl⟩⟩

/-! ## Steps -/

/-- Settles O33: a fetched HLT runs, a halted machine has no step, and a fetch past the top faults before it decodes. -/
theorem hltHalts : Obligations.HltHalts := by
  refine ⟨rfl, exec_hlt, fun s hrun hopc => ⟨fun hpc => ⟨?_, ?_⟩, fetchPastTopFaults s hrun⟩⟩
  · have hdec : decode s.irByte s.aByte s.bByte = .ok .hlt := by rw [hopc, decode_hlt]
    exact (step_eq_exec ⟨hrun, hpc⟩ hdec).trans (exec_hlt s)
  · exact (stepExactlyWhileRunning s.halt).2.1 rfl

/-- What the next fetch sees of an LDI with a good index: the machine still runs, three bytes further, the register holds the
immediate, and memory, stack pointer and output are as before (R120). -/
theorem exists_step_ldi {s : State} {a v : Byte} (h : s.CanFetch) (hdec : decode s.irByte s.aByte s.bByte = .ok (.ldi a v))
    (ha : a.toNat < 8) :
    ∃ t, step s = .next t ∧ t.status = .running ∧ t.pc.toNat = s.pc.toNat + 3 ∧ t.reg ⟨a.toNat, ha⟩ = v ∧
      t.mem = s.mem ∧ t.sp = s.sp ∧ t.out = s.out := by
  obtain ⟨hrun, hpc⟩ := h
  exact ⟨_, (step_eq_exec ⟨hrun, hpc⟩ hdec).trans (exec_ldi v s ha), hrun,
    State.advance_pc_toNat (s := s.setReg _ v) hpc (by simp), State.setReg_reg_same s _ v, rfl, rfl, rfl⟩

/-- What the next fetch sees of a PRN with a good index: the machine still runs, two bytes further, the register's value ends
the output, and memory and stack pointer are as before (R121). -/
theorem exists_step_prn {s : State} {a : Byte} (h : s.CanFetch) (hdec : decode s.irByte s.aByte s.bByte = .ok (.prn a))
    (ha : a.toNat < 8) :
    ∃ t, step s = .next t ∧ t.status = .running ∧ t.pc.toNat = s.pc.toNat + 2 ∧ t.out = s.out ++ [s.reg ⟨a.toNat, ha⟩] ∧
      t.mem = s.mem ∧ t.sp = s.sp := by
  obtain ⟨hrun, hpc⟩ := h
  exact ⟨_, (step_eq_exec ⟨hrun, hpc⟩ hdec).trans (exec_prn s ha), hrun,
    State.advance_pc_toNat (s := s.emit _) hpc (by simp), rfl, rfl, rfl⟩

/-- Settles O45: LDI leaves memory alone and advances by 3, so the next fetch sees the PRN, and the register PRN reads is the
one LDI wrote. -/
theorem loadThenPrintEmitsImmediate : Obligations.LoadThenPrintEmitsImmediate := by
  intro s a v hrun hpc ha hldi hldia hldiv hprn hprna
  have hdec : decode s.irByte s.aByte s.bByte = .ok (.ldi a v) := by
    rw [State.irByte, State.aByte, State.bByte, hldi, hldia, hldiv, decode_ldi]
  obtain ⟨t, ht, hrunt, hpct, hreg, hmemt, hspt, houtt⟩ := exists_step_ldi ⟨hrun, by omega⟩ hdec ha
  have hdec' : decode t.irByte t.aByte t.bByte = .ok (.prn a) := by
    rw [State.irByte, State.aByte, hmemt, hpct, hprn, hprna, decode_prn]
  obtain ⟨u, hu, hrunu, hpcu, houtu, hmemu, hspu⟩ := exists_step_prn ⟨hrunt, by omega⟩ hdec' ha
  exact ⟨t, u, ht, hu, by rw [houtu, houtt, hreg], by rw [hpcu, hpct], hrunu, hmemu.trans hmemt, hspu.trans hspt⟩

end Sys2Proof.Machine

/-! # The stack family (43_stack.md): PUSH and POP, and what they and CALL and RET leave alone -/

namespace Sys2Proof.Machine

/-! ## PUSH and POP on a good register operand -/

/-- With its one register operand below 8 an instruction whose own fault is due takes it. -/
theorem exec_of_one_own {i : Instr} {s : State} {a : Byte} {f : FaultReason} (hi : regOperands i = [a])
    (ha : a.toNat < 8) (hown : s.ownFault i = some f) : exec i s = .next (s.raise f) :=
  exec_eq_raise (by rw [instrFault_of_one hi, if_neg (Nat.not_le.mpr ha), hown])

/-- PUSH with a good index and room above `STACK_LIMIT` pushes the register and advances (R131). -/
theorem exec_push {a : Byte} {s : State} (ha : a.toNat < 8) (hroom : s.stackLimit.toNat < s.sp.toNat) :
    exec (.push a) s =
      .next (((s.setSp s.pushAddr).setByte s.pushAddr.toNat (s.reg ⟨a.toNat, ha⟩)).advance opcPush) :=
  exec_of_one_lt rfl (if_neg (Nat.not_le.mpr hroom)) ha ⟨ha, hroom, rfl⟩

/-- POP with a good index and a stack that is not empty pops into the register and advances (R132). -/
theorem exec_pop {a : Byte} {s : State} (ha : a.toNat < 8) (hfull : s.sp.toNat < 244) :
    exec (.pop a) s =
      .next (((s.setSp (s.sp + 1)).setReg ⟨a.toNat, ha⟩ (s.mem.read s.sp.toNat)).advance opcPop) :=
  exec_of_one_lt rfl (if_neg (Nat.not_le.mpr hfull)) ha ⟨ha, hfull, rfl⟩

/-- Settles O34: with room above `STACK_LIMIT` the stack pointer is not 0, so its decrement is exact; without, the guard of
R133 is PUSH's own fault. -/
theorem pushStoresBelowTop : Obligations.PushStoresBelowTop := by
  refine fun a s hmem => ⟨rfl, fun ha hroom => ?_, exec_of_one_ge rfl,
    fun ha hnoroom => exec_of_one_own rfl ha (if_pos hnoroom)⟩
  have haddr : s.pushAddr.toNat = s.sp.toNat - 1 := State.pushAddr_toNat (by omega)
  exact ⟨_, exec_push ha hroom, haddr, fun c => haddr ▸ Memory.read_write hmem _ _ c, rfl⟩

/-- Settles O35: the guard of R134 is POP's own fault. -/
theorem popLoadsTop : Obligations.PopLoadsTop := fun _ _ =>
  ⟨rfl, exec_pop, exec_of_one_ge rfl, fun ha hempty => exec_of_one_own rfl ha (if_pos hempty)⟩

/-! ## What the pushes and the pops leave alone -/

/-- Settles O39: a fault is the whole change; completing, both push, and after it PUSH advances and CALL jumps. -/
theorem pushCallFrame : Obligations.PushCallFrame := by
  intro a i s t hmem hi h
  simp only [List.mem_cons, List.not_mem_nil, or_false] at hi
  rcases exec_eq_next h with ⟨f, -, rfl⟩ | ⟨-, heff⟩
  · exact ⟨rfl, rfl, rfl, fun _ _ => rfl, .inl rfl, .inr ⟨f, rfl⟩⟩
  · rcases hi with rfl | rfl <;> obtain ⟨ha, hroom, rfl⟩ := heff <;>
      exact ⟨rfl, rfl, rfl, fun _ hc => Memory.read_write_other s.mem hmem _ hc, .inr rfl, .inl rfl⟩

/-- Settles O40: a fault is the whole change; completing, both increment the stack pointer, and only POP writes a register. -/
theorem popRetFrame : Obligations.PopRetFrame := by
  intro a i s t hi h
  simp only [List.mem_cons, List.not_mem_nil, or_false] at hi
  rcases exec_eq_next h with ⟨f, -, rfl⟩ | ⟨-, heff⟩
  · exact ⟨fun _ _ => rfl, fun _ => rfl, rfl, rfl, .inl rfl, .inr ⟨f, rfl⟩⟩
  rcases hi with rfl | rfl
  case inl =>
    obtain ⟨ha, -, rfl⟩ := heff
    refine ⟨fun r hr => ?_, fun _ => rfl, rfl, rfl, .inr rfl, .inl rfl⟩
    have hra : r ≠ ⟨a.toNat, ha⟩ := fun e => hr.elim nofun fun hne => hne (congrArg Fin.val e)
    exact State.setReg_reg_other (s.setSp (s.sp + 1)) _ hra
  case inr =>
    obtain ⟨-, rfl⟩ := heff
    exact ⟨fun _ _ => rfl, fun _ => rfl, rfl, rfl, .inr rfl, .inl rfl⟩

/-! ## PUSH and then POP of one register (R135) -/

/-- Writing a register with what it holds changes nothing. -/
@[simp] theorem State.setReg_reg_self (s : State) (i : Fin Config.nreg) : s.setReg i (s.reg i) = s := by
  simp [State.setReg, State.reg]

/-- POP into a register that holds the byte on top of the stack already only moves the stack pointer and advances. -/
theorem exec_pop_of_read_eq_reg {a : Byte} {s : State} (ha : a.toNat < 8) (hfull : s.sp.toNat < 244)
    (htop : s.mem.read s.sp.toNat = s.reg ⟨a.toNat, ha⟩) :
    exec (.pop a) s = .next ((s.setSp (s.sp + 1)).advance opcPop) := by
  rw [exec_pop ha hfull, htop, ← State.setSp_reg s (s.sp + 1), State.setReg_reg_self]

/-- Settles O43: the pushed byte misses the POP's two bytes, so the next fetch sees the POP, and the register still holds the
byte it pops. -/
theorem pushThenPopRoundTrip : Obligations.PushThenPopRoundTrip := by
  intro s a hinv hrun hpc ha hpush hpusha hpop hpopa hroom hmiss hmissa
  obtain ⟨hmem, -, htop, -⟩ := hinv
  have hdec : decode s.irByte s.aByte s.bByte = .ok (.push a) := by
    rw [State.irByte, State.aByte, hpush, hpusha, decode_push]
  obtain ⟨t, ht, hrunt, hpct, hreadt⟩ := exists_step_push hmem ⟨hrun, by omega⟩ hpush hpusha ha hroom
  have hdec' : decode t.irByte t.aByte t.bByte = .ok (.pop a) := by
    rw [State.irByte, State.aByte, hpct, hreadt, if_neg (by omega), hreadt, if_neg (by omega), hpop, hpopa, decode_pop]
  have hfetch : t.CanFetch := ⟨hrunt, by omega⟩
  have hpcu : ((t.setSp (t.sp + 1)).advance opcPop).pc.toNat = t.pc.toNat + 2 :=
    State.advance_pc_toNat (s := t.setSp (t.sp + 1)) hfetch.2 (by simp)
  cases (step_push ⟨hrun, by omega⟩ hdec ha hroom).symm.trans ht
  have haddr := State.pushAddr_toNat (s := s) (by omega)
  have hfull : s.pushAddr.toNat < 244 := by omega
  have hreg : s.x[a.toNat]?.getD 0 = s.reg ⟨a.toNat, ha⟩ := by simp [State.reg, ha]
  have hback := Memory.read_write_same s.mem hmem s.pushAddr.toNat (s.reg ⟨a.toNat, ha⟩)
  rw [hreg]
  exact ⟨_, _, ht, (step_eq_exec hfetch hdec').trans (exec_pop_of_read_eq_reg ha hfull hback), rfl,
    BitVec.sub_add_cancel s.sp 1, hpcu.trans (by rw [hpct]), hrun, rfl, rfl, hreadt⟩

end Sys2Proof.Machine

/-! # The call and return family (44_call_return.md): CALL, RET and the law between them -/

namespace Sys2Proof.Machine

/-! ## CALL -/

/-- The return address of a CALL that was fetched fits the byte that is pushed (R82, R141). -/
theorem returnAddr_toNat {pc : PcWord} (hpc : pc.toNat ≤ 253) : (returnAddr pc).toNat = pc.toNat + 2 := by
  have hadd : (pc + 2).toNat = pc.toNat + 2 := by bv_omega
  rw [returnAddr, BitVec.toNat_setWidth, hadd]
  omega

/-- CALL with a good index and room above `STACK_LIMIT` pushes the return address and jumps to the register's value (R141). -/
theorem exec_call {a : Byte} {s : State} (ha : a.toNat < 8) (hroom : s.stackLimit.toNat < s.sp.toNat) :
    exec (.call a) s =
      .next (((s.setSp s.pushAddr).setByte s.pushAddr.toNat (returnAddr s.pc)).jump (s.reg ⟨a.toNat, ha⟩)) :=
  exec_of_one_lt rfl (if_neg (Nat.not_le.mpr hroom)) ha ⟨ha, hroom, rfl⟩

/-- Settles O36: the return address is not cut where a CALL is fetched, the push writes it below the old stack pointer, and the
guard of R133 is CALL's own fault. -/
theorem callPushesReturnAndJumps : Obligations.CallPushesReturnAndJumps := by
  refine fun a s hmem hpc => ⟨rfl, fun ha hroom => ?_, exec_of_one_ge rfl,
    fun ha hnoroom => exec_of_one_own rfl ha (if_pos hnoroom)⟩
  have haddr : s.pushAddr.toNat = s.sp.toNat - 1 := State.pushAddr_toNat (by omega)
  refine ⟨_, exec_call ha hroom, haddr, ?_, fun c hc => ?_, zext9_toNat _, rfl⟩
  · rw [State.jump_mem, State.read_pushed hmem hroom, if_pos (by omega), returnAddr_toNat hpc]
  · rw [State.jump_mem, State.read_pushed hmem hroom, if_neg (by omega)]

/-! ## RET -/

/-- RET on a stack that is not empty pops the byte at the stack pointer into the program counter (R142). -/
theorem exec_ret {s : State} (hfull : s.sp.toNat < 244) :
    exec .ret s = .next ((s.setSp (s.sp + 1)).jump (s.mem.read s.sp.toNat)) :=
  exec_eq_effect (if_neg (Nat.not_le.mpr hfull)) ⟨hfull, rfl⟩

/-- Settles O37: the pop's increment does not wrap, the guard of R134 is RET's own fault, and a fetch past the top faults
whatever byte stands there. -/
theorem retPopsProgramCounter : Obligations.RetPopsProgramCounter := fun s =>
  ⟨rfl, fun hfull => ⟨_, exec_ret hfull, zext9_toNat _, State.sp_succ_toNat hfull, rfl⟩,
    fun hempty => exec_eq_raise (if_pos hempty), fun hrun _ => fetchPastTopFaults s hrun⟩

/-! ## CALL and then RET (R144) -/

/-- A fetched CALL that completes had room above `STACK_LIMIT`, and leaves the decremented stack pointer and the return address
on top of the stack. -/
theorem top_of_step_call {s t : State} (hmem : s.mem.wf) (h : s.CanFetch) (hopc : s.irByte = opcCall)
    (hstep : step s = .next t) (hrun : t.status = .running) :
    s.stackLimit.toNat < s.sp.toNat ∧ t.sp = s.pushAddr ∧ t.mem.read t.sp.toNat = returnAddr s.pc := by
  have hdec : decode s.irByte s.aByte s.bByte = .ok (.call s.aByte) := by rw [hopc, decode_call]
  rcases exec_eq_next ((step_eq_exec h hdec).symm.trans hstep) with ⟨f, -, rfl⟩ | ⟨-, ha, hroom, rfl⟩
  · cases hrun
  · exact ⟨hroom, rfl, Memory.read_write_same s.mem hmem _ _⟩

/-- Settles O44: the RET finds the return address on top of a stack that is not empty, and its increment takes back the
decrement of the CALL. -/
theorem callThenReturnResumes : Obligations.CallThenReturnResumes := by
  rintro s t u ⟨hmem, -, hhi, -⟩ hfetch hcall hstep hrun hfetchu hret hsp htop
  obtain ⟨hroom, hspt, hread⟩ := top_of_step_call hmem hfetch hcall hstep hrun
  have hspu : u.sp = s.pushAddr := hsp.trans hspt
  have haddr : s.pushAddr.toNat = s.sp.toNat - 1 := State.pushAddr_toNat (by omega)
  have hfull : u.sp.toNat < 244 := by rw [hspu]; omega
  have hdec : decode u.irByte u.aByte u.bByte = .ok .ret := by rw [hret, decode_ret]
  refine ⟨_, (step_eq_exec hfetchu hdec).trans (exec_ret hfull), hfetchu.1, ?_, ?_, rfl, rfl, rfl⟩
  · rw [State.jump_pc, zext9_toNat, htop, hread, returnAddr_toNat hfetch.2]
  · rw [State.jump_sp, State.setSp_sp, hspu]
    exact BitVec.sub_add_cancel s.sp 1

end Sys2Proof.Machine

/-! # The exceptions family (60_exceptions.md): what a fault leaves alone -/

namespace Sys2Proof.Machine

/-- Settles O10: a fault taken is the status alone, and an instruction that completes ends running or halted. -/
theorem faultChangesOnlyStatus : Obligations.FaultChangesOnlyStatus := by
  intro s t r h hfaulted
  obtain ⟨hrun, ⟨f, rfl⟩ | ⟨-, hc⟩⟩ := step_change h
  · cases hfaulted
    rfl
  · rcases hc.status_eq_or_halted with hkept | hhalted
    · cases hfaulted.symm.trans (hkept.trans hrun)
    · cases hfaulted.symm.trans hhalted

end Sys2Proof.Machine

/-! # The reset and hazards family (70_reset_and_hazards.md): the launch state, and the instruction stored for the next step -/

namespace Sys2Proof.Machine

/-! ## Launch (R183) -/

/-- An image that fits memory and a legal `STACK_LIMIT` launch in the reset state with the image loaded from address 0. -/
theorem State.launch_of_le {image : List Byte} {limit : Byte} (hlen : image.length ≤ 256) (hlimit : limit.toNat ≤ 244) :
    State.launch image limit =
      some { State.resetWith Config.r7Reset limit with mem := Memory.load [] 0 image } :=
  if_pos ⟨hlen, hlimit⟩

/-- An image longer than memory (D21) and a `STACK_LIMIT` above `SP_INIT` (R5) do not launch. -/
theorem State.launch_of_gt {image : List Byte} {limit : Byte} (h : 256 < image.length ∨ 244 < limit.toNat) :
    State.launch image limit = none :=
  if_neg fun ⟨hlen, hlimit⟩ => h.elim (Nat.not_lt.mpr hlen) (Nat.not_lt.mpr hlimit)

/-- Settles O16: the load into the empty memory keeps the canonical form, and nothing else of the reset state is written. -/
theorem launchPlacesImage : Obligations.LaunchPlacesImage := by
  refine fun image limit => ⟨fun hlen hlimit => ?_, State.launch_of_gt⟩
  obtain ⟨hmem, hlo, hhi, hpc⟩ := resetWith_inv Config.r7Reset hlimit
  have hfits : 0 + image.length ≤ 256 := by omega
  refine ⟨_, State.launch_of_le hlen hlimit, ⟨Memory.load_wf hmem hfits, hlo, hhi, hpc⟩, fun a => ?_,
    rfl, rfl, rfl, rfl, rfl, rfl⟩
  calc (Memory.load [] 0 image).read a
      = (image[a]?).getD (Memory.read [] a) := Memory.read_load hmem hfits a
    _ = image.getD a 0 := (List.getD_eq_getElem?_getD ..).symm

/-! ## A table word stored where the next step fetches (log 9) -/

/-- The state with a stored word runs, at a program counter whose lookahead fits. -/
theorem State.withFetchWord_canFetch (s : State) (nbits w : Nat) : (s.withFetchWord nbits w).CanFetch := by
  refine ⟨rfl, ?_⟩
  change (if s.pc.toNat + 2 > 255 then Config.pcReset else s.pc).toNat ≤ 253
  split
  · decide
  · omega

section
variable {nbits w : Nat} {ir a b : Byte} (hbytes : tableBytes nbits w = (ir, a, b))
include hbytes

/-- The memory with a stored word is the old one with the word's three bytes loaded at the program counter. -/
theorem State.withFetchWord_mem (s : State) :
    (s.withFetchWord nbits w).mem = s.mem.load (s.withFetchWord nbits w).pc.toNat [ir, a, b] := by
  simp [State.withFetchWord, State.withWordAtFetch, hbytes]

/-- The next step fetches the three bytes of the stored word. -/
theorem fetched_withFetchWord {s : State} (hmem : s.mem.wf) :
    (s.withFetchWord nbits w).irByte = ir ∧ (s.withFetchWord nbits w).aByte = a ∧
      (s.withFetchWord nbits w).bByte = b := by
  obtain ⟨-, hpc⟩ := s.withFetchWord_canFetch nbits w
  have hread := Memory.read_load (image := [ir, a, b]) hmem (Nat.add_le_add_right hpc 3)
  simp [State.irByte, State.aByte, State.bByte, State.withFetchWord_mem hbytes, hread]

/-- The word's instruction is the one its three bytes decode to. -/
theorem decode_of_decodeTableWord {i : Instr} (hword : decodeTableWord nbits w = some i) : decode ir a b = .ok i := by
  simp only [decodeTableWord, hbytes] at hword
  cases hdec : decode ir a b with
  | ok j => rw [hdec] at hword; exact congrArg Except.ok (Option.some.inj hword)
  | error e => rw [hdec] at hword; cases hword

end

/-- Settles O23: the step fetches the stored bytes, and they decode to the word's instruction. -/
theorem storedWordRunsNext : Obligations.StoredWordRunsNext := by
  intro s nbits w i hmem hword
  rcases hbytes : tableBytes nbits w with ⟨ir, a, b⟩
  obtain ⟨hir, ha, hb⟩ := fetched_withFetchWord hbytes hmem
  refine step_eq_exec (s.withFetchWord_canFetch nbits w) ?_
  rw [hir, ha, hb, decode_of_decodeTableWord hbytes hword]

end Sys2Proof.Machine
